-- ==== Sys2Proof/Word.lean ====
section
/-! DEFINITION. The word types of the machine and their plainest arithmetic (00_scope.md R5, R7).
Every value of the machine is unsigned; nothing is ever sign-extended. -/

namespace Sys2Proof

/-- XLEN = 8: a general register, a memory cell, a timer (R5). -/
abbrev Byte := BitVec 8

/-- 16 bits: the index register, the program counter, a stack slot, an opcode (R5). -/
abbrev Word := BitVec 16

/-- ADDR_BITS = 12: an address taken from an opcode field (R5). -/
abbrev Addr12 := BitVec 12

/-- The number of a general register, V0 to VF (R20). -/
abbrev Reg := Fin 16

/-- The number of a key, 0x0 to 0xF (R27). -/
abbrev Key := Fin 16

/-- The flag register VF = V[15] (R21). -/
def VF : Reg := 15

end Sys2Proof
end

