-- ==== Sys2Proof/Syntax.lean ====
section
/-! DEFINITION. The instructions: one constructor for each row of spec/opcode_table.json, in the order of
30_encoding.md R96, and UNDEF last (R99). Operands are the fields of R91 that the row lists. -/

namespace Sys2Proof

inductive Instr where
  /-- 00E0: clear the framebuffer (R210). -/
  | cls
  /-- 00EE: return (R140). -/
  | ret
  /-- 1nnn: jump (R141). -/
  | jp (nnn : Addr12)
  /-- 2nnn: call (R142). -/
  | call (nnn : Addr12)
  /-- 3xkk: skip if Vx = kk (R143). -/
  | seByte (x : Reg) (kk : Byte)
  /-- 4xkk: skip if Vx ≠ kk (R144). -/
  | sneByte (x : Reg) (kk : Byte)
  /-- 5xy0: skip if Vx = Vy (R145). -/
  | seReg (x y : Reg)
  /-- 9xy0: skip if Vx ≠ Vy (R146). -/
  | sneReg (x y : Reg)
  /-- 6xkk: Vx := kk (R160). -/
  | ldByte (x : Reg) (kk : Byte)
  /-- 7xkk: Vx := Vx + kk, no flag (R161). -/
  | addByte (x : Reg) (kk : Byte)
  /-- 8xy0: Vx := Vy (R162). -/
  | ldReg (x y : Reg)
  /-- 8xy1: Vx := Vx OR Vy (R163). -/
  | orReg (x y : Reg)
  /-- 8xy2: Vx := Vx AND Vy (R164). -/
  | andReg (x y : Reg)
  /-- 8xy3: Vx := Vx XOR Vy (R165). -/
  | xorReg (x y : Reg)
  /-- 8xy4: Vx := Vx + Vy, VF the carry (R166). -/
  | addReg (x y : Reg)
  /-- 8xy5: Vx := Vx − Vy, VF = Vx > Vy (R167). -/
  | subReg (x y : Reg)
  /-- 8xy6: Vx := Vx >> 1, VF the low bit; y is decoded and ignored (R168). -/
  | shr (x y : Reg)
  /-- 8xy7: Vx := Vy − Vx, VF = Vy > Vx (R169). -/
  | subnReg (x y : Reg)
  /-- 8xyE: Vx := Vx << 1, VF the high bit; y is decoded and ignored (R170). -/
  | shl (x y : Reg)
  /-- Annn: I := nnn (R190). -/
  | ldI (nnn : Addr12)
  /-- Bnnn: PC := nnn + V0 (R147). -/
  | jpV0 (nnn : Addr12)
  /-- Cxkk: Vx := random byte AND kk (R171). -/
  | rnd (x : Reg) (kk : Byte)
  /-- Dxyn: draw n sprite rows at (Vx, Vy) (R211). -/
  | drw (x y : Reg) (n : Fin 16)
  /-- Ex9E: skip if the key Vx is pressed (R230). -/
  | skp (x : Reg)
  /-- ExA1: skip if the key Vx is not pressed (R231). -/
  | sknp (x : Reg)
  /-- Fx07: Vx := DT (R232). -/
  | ldVxDt (x : Reg)
  /-- Fx15: DT := Vx (R234). -/
  | ldDtVx (x : Reg)
  /-- Fx18: ST := Vx (R235). -/
  | ldStVx (x : Reg)
  /-- Fx0A: wait for a key (R233). -/
  | ldVxK (x : Reg)
  /-- Fx1E: I := I + Vx (R191). -/
  | addI (x : Reg)
  /-- Fx29: I := address of the glyph Vx (R192). -/
  | ldF (x : Reg)
  /-- Fx33: store the three decimal digits of Vx (R193). -/
  | ldB (x : Reg)
  /-- Fx55: store V0..Vx (R194). -/
  | storeRegs (x : Reg)
  /-- Fx65: load V0..Vx (R195). -/
  | loadRegs (x : Reg)
  /-- UNDEF: a word that selects no handler, carried whole (R98, R127). -/
  | undef (w : Word)
deriving DecidableEq, Repr

end Sys2Proof
end

