-- ==== Sys2Proof/WellFormed.lean ====
section
/-! DEFINITION. Which instruction terms stand for an encoding. The widths of the fields are in the types, so the
one check is on UNDEF: its word is none that a handler is selected by (30_encoding.md R98). -/

namespace Sys2Proof

/-- The UNDEF words of R98 (a) to (d), written as that rule writes them: by the primary selector and
the secondary key. -/
def isUndefWord (w : Word) : Bool :=
  let p := w.extractLsb' 12 4
  let n := w.extractLsb' 0 4
  let kk := w.extractLsb' 0 8
  (p == 0x0#4 && !(n == 0x0#4 || n == 0xE#4))
  || (p == 0x8#4 && (n == 0x8#4 || n == 0x9#4 || n == 0xA#4 || n == 0xB#4 || n == 0xC#4 || n == 0xD#4 || n == 0xF#4))
  || (p == 0xE#4 && !(n == 0x1#4 || n == 0xE#4))
  || (p == 0xF#4 && !(kk == 0x07#8 || kk == 0x0A#8 || kk == 0x15#8 || kk == 0x18#8 || kk == 0x1E#8
      || kk == 0x29#8 || kk == 0x33#8 || kk == 0x55#8 || kk == 0x65#8))

/-- A term that some word encodes: every instruction of R96 with any operands, and UNDEF with an UNDEF word. -/
def Instr.wellFormed : Instr → Bool
  | .undef w => isUndefWord w
  | _ => true

end Sys2Proof
end

