-- ==== Sys2Proof/Decode.lean ====
section
/-! DEFINITION. The decoder (30_encoding.md R90 to R95, R104), total on every byte sequence, and after it the encoder,
written from the formats and canonical patterns of R92 and R96. -/

namespace Sys2Proof

/-! ### Fields (R91) -/

/-- `p`, bits 15:12: the primary selector. -/
def fieldP (w : Word) : BitVec 4 := w.extractLsb' 12 4

/-- `x`, bits 11:8. -/
def fieldX (w : Word) : Reg := (w.extractLsb' 8 4).toFin

/-- `y`, bits 7:4. -/
def fieldY (w : Word) : Reg := (w.extractLsb' 4 4).toFin

/-- `n`, bits 3:0, as the sprite row count of Dxyn. -/
def fieldN (w : Word) : Fin 16 := (w.extractLsb' 0 4).toFin

/-- Bits 3:0 as the secondary selector of groups 0, 8 and E (R94). -/
def selectorN (w : Word) : BitVec 4 := w.extractLsb' 0 4

/-- `kk`, bits 7:0: the immediate byte, and the secondary selector of group F. -/
def fieldKK (w : Word) : Byte := w.extractLsb' 0 8

/-- `nnn`, bits 11:0. -/
def fieldNNN (w : Word) : Addr12 := w.extractLsb' 0 12

/-! ### The dispatcher (R94, R95, R104) -/

/-- Group 0, keyed by bits 3:0; bits 11:4 are not examined (R97). -/
def decodeGroup0 (w : Word) : Instr :=
  match selectorN w with
  | 0x0#4 => .cls
  | 0xE#4 => .ret
  | _ => .undef w

/-- Group 8, keyed by bits 3:0. -/
def decodeGroup8 (w : Word) : Instr :=
  match selectorN w with
  | 0x0#4 => .ldReg (fieldX w) (fieldY w)
  | 0x1#4 => .orReg (fieldX w) (fieldY w)
  | 0x2#4 => .andReg (fieldX w) (fieldY w)
  | 0x3#4 => .xorReg (fieldX w) (fieldY w)
  | 0x4#4 => .addReg (fieldX w) (fieldY w)
  | 0x5#4 => .subReg (fieldX w) (fieldY w)
  | 0x6#4 => .shr (fieldX w) (fieldY w)
  | 0x7#4 => .subnReg (fieldX w) (fieldY w)
  | 0xE#4 => .shl (fieldX w) (fieldY w)
  | _ => .undef w

/-- Group E, keyed by bits 3:0; bits 7:4 are not examined (R97). -/
def decodeGroupE (w : Word) : Instr :=
  match selectorN w with
  | 0x1#4 => .sknp (fieldX w)
  | 0xE#4 => .skp (fieldX w)
  | _ => .undef w

/-- Group F, keyed by the low byte. -/
def decodeGroupF (w : Word) : Instr :=
  match fieldKK w with
  | 0x07#8 => .ldVxDt (fieldX w)
  | 0x0A#8 => .ldVxK (fieldX w)
  | 0x15#8 => .ldDtVx (fieldX w)
  | 0x18#8 => .ldStVx (fieldX w)
  | 0x1E#8 => .addI (fieldX w)
  | 0x29#8 => .ldF (fieldX w)
  | 0x33#8 => .ldB (fieldX w)
  | 0x55#8 => .storeRegs (fieldX w)
  | 0x65#8 => .loadRegs (fieldX w)
  | _ => .undef w

/-- The two-level dispatcher, total on all 65536 words (R104). The last arm is the selector 0xF. -/
def decodeWord (w : Word) : Instr :=
  match fieldP w with
  | 0x0#4 => decodeGroup0 w
  | 0x1#4 => .jp (fieldNNN w)
  | 0x2#4 => .call (fieldNNN w)
  | 0x3#4 => .seByte (fieldX w) (fieldKK w)
  | 0x4#4 => .sneByte (fieldX w) (fieldKK w)
  | 0x5#4 => .seReg (fieldX w) (fieldY w)
  | 0x6#4 => .ldByte (fieldX w) (fieldKK w)
  | 0x7#4 => .addByte (fieldX w) (fieldKK w)
  | 0x8#4 => decodeGroup8 w
  | 0x9#4 => .sneReg (fieldX w) (fieldY w)
  | 0xA#4 => .ldI (fieldNNN w)
  | 0xB#4 => .jpV0 (fieldNNN w)
  | 0xC#4 => .rnd (fieldX w) (fieldKK w)
  | 0xD#4 => .drw (fieldX w) (fieldY w) (fieldN w)
  | 0xE#4 => decodeGroupE w
  | _ => decodeGroupF w

/-- The opcode of two bytes, the one at the lower address in bits 15:8 (20_memory.md R62). -/
def wordOfBytes (hi lo : Byte) : Word := hi ++ lo

/-- Why a byte sequence holds no instruction. -/
inductive DecodeError where
  /-- Fewer than two bytes (every instruction is two bytes, R90). Never met by the machine, whose fetch always
  reads two bytes. Safe: the decoder stops. -/
  | truncated
deriving DecidableEq, Repr

/-- The instruction at the head of a byte sequence, and the bytes after it. -/
def decode : List Byte → Except DecodeError (Instr × List Byte)
  | hi :: lo :: rest => .ok (decodeWord (wordOfBytes hi lo), rest)
  | _ => .error .truncated

/-! ### The encoder (R92, R96) -/

/-- Format A: `p nnn`. -/
def formatA (p : BitVec 4) (nnn : Addr12) : Word := p ++ nnn

/-- Format XK: `p x kk`. -/
def formatXK (p : BitVec 4) (x : Reg) (kk : Byte) : Word := p ++ (BitVec.ofFin x : BitVec 4) ++ kk

/-- Formats XY and XYN: `p x y n`. -/
def formatXYN (p : BitVec 4) (x y : Reg) (n : BitVec 4) : Word :=
  p ++ (BitVec.ofFin x : BitVec 4) ++ (BitVec.ofFin y : BitVec 4) ++ n

/-- The canonical word of an instruction: R96's column "canonical", whose fixed digits fill the bits that the
dispatcher does not examine. UNDEF gives its own word back. -/
def encodeWord : Instr → Word
  | .cls => 0x00E0#16
  | .ret => 0x00EE#16
  | .jp nnn => formatA 0x1#4 nnn
  | .call nnn => formatA 0x2#4 nnn
  | .seByte x kk => formatXK 0x3#4 x kk
  | .sneByte x kk => formatXK 0x4#4 x kk
  | .seReg x y => formatXYN 0x5#4 x y 0x0#4
  | .sneReg x y => formatXYN 0x9#4 x y 0x0#4
  | .ldByte x kk => formatXK 0x6#4 x kk
  | .addByte x kk => formatXK 0x7#4 x kk
  | .ldReg x y => formatXYN 0x8#4 x y 0x0#4
  | .orReg x y => formatXYN 0x8#4 x y 0x1#4
  | .andReg x y => formatXYN 0x8#4 x y 0x2#4
  | .xorReg x y => formatXYN 0x8#4 x y 0x3#4
  | .addReg x y => formatXYN 0x8#4 x y 0x4#4
  | .subReg x y => formatXYN 0x8#4 x y 0x5#4
  | .shr x y => formatXYN 0x8#4 x y 0x6#4
  | .subnReg x y => formatXYN 0x8#4 x y 0x7#4
  | .shl x y => formatXYN 0x8#4 x y 0xE#4
  | .ldI nnn => formatA 0xA#4 nnn
  | .jpV0 nnn => formatA 0xB#4 nnn
  | .rnd x kk => formatXK 0xC#4 x kk
  | .drw x y n => formatXYN 0xD#4 x y (BitVec.ofFin n)
  | .skp x => formatXK 0xE#4 x 0x9E#8
  | .sknp x => formatXK 0xE#4 x 0xA1#8
  | .ldVxDt x => formatXK 0xF#4 x 0x07#8
  | .ldDtVx x => formatXK 0xF#4 x 0x15#8
  | .ldStVx x => formatXK 0xF#4 x 0x18#8
  | .ldVxK x => formatXK 0xF#4 x 0x0A#8
  | .addI x => formatXK 0xF#4 x 0x1E#8
  | .ldF x => formatXK 0xF#4 x 0x29#8
  | .ldB x => formatXK 0xF#4 x 0x33#8
  | .storeRegs x => formatXK 0xF#4 x 0x55#8
  | .loadRegs x => formatXK 0xF#4 x 0x65#8
  | .undef w => w

/-- The byte of a word that lies at the lower address (R62). -/
def highByte (w : Word) : Byte := w.extractLsb' 8 8

/-- The byte of a word that lies at the higher address (R62). -/
def lowByte (w : Word) : Byte := w.extractLsb' 0 8

/-- The two bytes of an instruction as they lie in memory, big-endian (R62, R103). -/
def encode (i : Instr) : List Byte := [highByte (encodeWord i), lowByte (encodeWord i)]

/-! ### The opcode map (R96) -/

/-- The row of R96's table that an instruction is, 1 to 34; UNDEF is row 35. -/
def Instr.row : Instr → Nat
  | .cls => 1
  | .ret => 2
  | .jp _ => 3
  | .call _ => 4
  | .seByte _ _ => 5
  | .sneByte _ _ => 6
  | .seReg _ _ => 7
  | .sneReg _ _ => 8
  | .ldByte _ _ => 9
  | .addByte _ _ => 10
  | .ldReg _ _ => 11
  | .orReg _ _ => 12
  | .andReg _ _ => 13
  | .xorReg _ _ => 14
  | .addReg _ _ => 15
  | .subReg _ _ => 16
  | .shr _ _ => 17
  | .subnReg _ _ => 18
  | .shl _ _ => 19
  | .ldI _ => 20
  | .jpV0 _ => 21
  | .rnd _ _ => 22
  | .drw _ _ _ => 23
  | .skp _ => 24
  | .sknp _ => 25
  | .ldVxDt _ => 26
  | .ldDtVx _ => 27
  | .ldStVx _ => 28
  | .ldVxK _ => 29
  | .addI _ => 30
  | .ldF _ => 31
  | .ldB _ => 32
  | .storeRegs _ => 33
  | .loadRegs _ => 34
  | .undef _ => 35

/-- One row of R96's table: its number, the decoder's mask and match, and the mask and match of the canonical
pattern that the source prints. -/
structure OpcodeRow where
  row : Nat
  mask : Word
  bits : Word
  canonicalMask : Word
  canonicalBits : Word
deriving DecidableEq, Repr

/-- A word is selected by the row (R96: "iff (w AND mask) = match"). -/
def OpcodeRow.selects (r : OpcodeRow) (w : Word) : Bool := w &&& r.mask == r.bits

/-- Rows 1 to 10. -/
def opcodeRowsA : List OpcodeRow := [
  ⟨1, 0xF00F#16, 0x0000#16, 0xFFFF#16, 0x00E0#16⟩,
  ⟨2, 0xF00F#16, 0x000E#16, 0xFFFF#16, 0x00EE#16⟩,
  ⟨3, 0xF000#16, 0x1000#16, 0xF000#16, 0x1000#16⟩,
  ⟨4, 0xF000#16, 0x2000#16, 0xF000#16, 0x2000#16⟩,
  ⟨5, 0xF000#16, 0x3000#16, 0xF000#16, 0x3000#16⟩,
  ⟨6, 0xF000#16, 0x4000#16, 0xF000#16, 0x4000#16⟩,
  ⟨7, 0xF000#16, 0x5000#16, 0xF00F#16, 0x5000#16⟩,
  ⟨8, 0xF000#16, 0x9000#16, 0xF00F#16, 0x9000#16⟩,
  ⟨9, 0xF000#16, 0x6000#16, 0xF000#16, 0x6000#16⟩,
  ⟨10, 0xF000#16, 0x7000#16, 0xF000#16, 0x7000#16⟩]

/-- Rows 11 to 23. -/
def opcodeRowsB : List OpcodeRow := [
  ⟨11, 0xF00F#16, 0x8000#16, 0xF00F#16, 0x8000#16⟩,
  ⟨12, 0xF00F#16, 0x8001#16, 0xF00F#16, 0x8001#16⟩,
  ⟨13, 0xF00F#16, 0x8002#16, 0xF00F#16, 0x8002#16⟩,
  ⟨14, 0xF00F#16, 0x8003#16, 0xF00F#16, 0x8003#16⟩,
  ⟨15, 0xF00F#16, 0x8004#16, 0xF00F#16, 0x8004#16⟩,
  ⟨16, 0xF00F#16, 0x8005#16, 0xF00F#16, 0x8005#16⟩,
  ⟨17, 0xF00F#16, 0x8006#16, 0xF00F#16, 0x8006#16⟩,
  ⟨18, 0xF00F#16, 0x8007#16, 0xF00F#16, 0x8007#16⟩,
  ⟨19, 0xF00F#16, 0x800E#16, 0xF00F#16, 0x800E#16⟩,
  ⟨20, 0xF000#16, 0xA000#16, 0xF000#16, 0xA000#16⟩,
  ⟨21, 0xF000#16, 0xB000#16, 0xF000#16, 0xB000#16⟩,
  ⟨22, 0xF000#16, 0xC000#16, 0xF000#16, 0xC000#16⟩,
  ⟨23, 0xF000#16, 0xD000#16, 0xF000#16, 0xD000#16⟩]

/-- Rows 24 to 34. -/
def opcodeRowsC : List OpcodeRow := [
  ⟨24, 0xF00F#16, 0xE00E#16, 0xF0FF#16, 0xE09E#16⟩,
  ⟨25, 0xF00F#16, 0xE001#16, 0xF0FF#16, 0xE0A1#16⟩,
  ⟨26, 0xF0FF#16, 0xF007#16, 0xF0FF#16, 0xF007#16⟩,
  ⟨27, 0xF0FF#16, 0xF015#16, 0xF0FF#16, 0xF015#16⟩,
  ⟨28, 0xF0FF#16, 0xF018#16, 0xF0FF#16, 0xF018#16⟩,
  ⟨29, 0xF0FF#16, 0xF00A#16, 0xF0FF#16, 0xF00A#16⟩,
  ⟨30, 0xF0FF#16, 0xF01E#16, 0xF0FF#16, 0xF01E#16⟩,
  ⟨31, 0xF0FF#16, 0xF029#16, 0xF0FF#16, 0xF029#16⟩,
  ⟨32, 0xF0FF#16, 0xF033#16, 0xF0FF#16, 0xF033#16⟩,
  ⟨33, 0xF0FF#16, 0xF055#16, 0xF0FF#16, 0xF055#16⟩,
  ⟨34, 0xF0FF#16, 0xF065#16, 0xF0FF#16, 0xF065#16⟩]

/-- R96's table, rows 1 to 34. -/
def opcodeRows : List OpcodeRow := opcodeRowsA ++ opcodeRowsB ++ opcodeRowsC

/-! ### The host's question -/

/-- The instruction that the decoder reads from a word numbered as the opcode table numbers it: one 16-bit word,
laid out high byte first, the bits above `nbits` zero (assumption 13). -/
def decodeTableWord (nbits w : Nat) : Option Instr :=
  let word : Word := BitVec.ofNat 16 (w % 2 ^ nbits)
  match decode [highByte word, lowByte word] with
  | .ok (i, _) => some i
  | .error _ => none

end Sys2Proof
end

