-- ==== Sys2Proof/Config.lean ====
section
/-! DEFINITION. The parameters of the machine (00_scope.md R5) and its one free value, the entropy source.
The 80 bytes of the parameter FONT stand in Machine/Memory.lean. -/

namespace Sys2Proof.Config

/-- MEM_SIZE: 4096 memory cells, addresses 0x000 to 0xFFF (R5). -/
def memSize : Nat := 4096

/-- FB_W: the columns of the framebuffer (R5). -/
def fbWidth : Nat := 64

/-- FB_H: the rows of the framebuffer (R5). -/
def fbHeight : Nat := 32

/-- STACK_DEPTH: the slots of the call stack (R5). -/
def stackDepth : Nat := 16

/-- FONT_BASE: the address of the first font byte (R5). -/
def fontBase : Nat := 0x050

/-- FONT_LEN: 16 glyphs of 5 bytes (R5). -/
def fontLen : Nat := 80

/-- GLYPH_LEN: the bytes of a glyph (R5). -/
def glyphLen : Nat := 5

/-- PROG_BASE: where a ROM is loaded, and the reset value of PC (R5). -/
def progBase : Nat := 0x200

/-- ROM_MAX: the longest ROM that LoadRom accepts, 4096 − 0x200 bytes (R5, R293). -/
def romMax : Nat := 3584

/-- FREE VALUE. The byte that the entropy source delivers at the n-th Step (R32, R268; assumption 3).
It has no body, so nothing can be proved of its values: every Step draws a fresh unconstrained byte. -/
opaque rnd : Nat → Byte

end Sys2Proof.Config
end

