-- ==== Sys2Proof/Machine/State.lean ====
section
/-! DEFINITION. The state of the machine as plain data (10_state.md R20 to R33), its reasons to stop, and the state
after reset (R35, R290). -/

namespace Sys2Proof.Machine

/-- The memory MEM (R29): the cells that differ from what an unlisted address reads as, addresses rising.
The canonical form is `Memory.wf`, what an unlisted address reads as `Memory.unlisted`, both in Machine/Memory.lean. -/
abbrev Memory := List Host.Cell

/-- The framebuffer FB (R28): 32 rows of 64 one-bit cells, row 0 first; bit cx of a row is the cell in column cx
(the placing of the columns in the row is the model's own, assumption 7). -/
abbrev Framebuffer := Vector (BitVec 64) 32

/-- THE MODEL'S OWN, not the spec's state: what lives only inside one Step. The Step sets both fields at its start and
both are zero between Steps (assumptions 3 and 5). -/
structure StepLocal where
  /-- `rnd`: the RND input of the current Step (R32, R268). -/
  rnd : Byte
  /-- `STEP_ERR`: the error kinds raised so far in the current Step (R120, R251). -/
  err : BitVec 4
deriving DecidableEq, Repr

/-- Between Steps. -/
def StepLocal.idle : StepLocal := { rnd := 0#8, err := 0#4 }

/-- The whole machine: the tuple at the head of 10_state.md, and after it the model's own two fields. -/
structure State where
  /-- V0..VF (R20); VF is also the flag (R21). -/
  v : Vector Byte 16
  /-- The index register I, 16 bits (R22). -/
  i : Word
  /-- The program counter PC, 16 bits (R23). -/
  pc : Word
  /-- The call stack STACK, 16 slots of 16 bits (R24). -/
  stack : Vector Word 16
  /-- The stack pointer SP, the number of occupied slots, 0 to 16 (R24; assumption 6). -/
  sp : Fin 17
  /-- The delay timer DT (R25). -/
  dt : Byte
  /-- The sound timer ST (R26). -/
  st : Byte
  /-- The keypad latch KEY, true = pressed (R27). -/
  key : Vector Bool 16
  /-- The framebuffer FB (R28). -/
  fb : Framebuffer
  /-- The memory MEM (R29). -/
  mem : Memory
  /-- The sticky error register ERR (R31, R252). -/
  err : BitVec 5
  /-- THE MODEL'S OWN: the scratch of the current Step. -/
  cur : StepLocal
  /-- THE MODEL'S OWN: how many bytes the entropy source has delivered (assumption 3). -/
  draws : Nat
deriving DecidableEq, Repr

/-- Why the machine stops with a fault: never. "No error stops the core" (R253), Step "has no failure result" (R125), there
is no trap and no halted state (R254, R33), so the type has no constructor (assumption 8). -/
inductive Fault
deriving DecidableEq, Repr

/-- Why the model has no meaning for an instruction. -/
inductive Refusal where
  /-- Raised by an arm of `exec` whose instruction has no meaning yet; no arm raises it. Safe. -/
  | notModelled (mnemonic : String)
deriving DecidableEq, Repr

/-- The machine right after reset (R35, R290): PC = 0x0200, memory at its reset contents (nothing listed: the font
table FONT and zeros), everything else zero. -/
def State.reset : State where
  v := Vector.replicate 16 0#8
  i := 0#16
  pc := BitVec.ofNat 16 Config.progBase
  stack := Vector.replicate 16 0#16
  sp := 0
  dt := 0#8
  st := 0#8
  key := Vector.replicate 16 false
  fb := Vector.replicate 32 0#64
  mem := []
  err := 0#5
  cur := StepLocal.idle
  draws := 0

end Sys2Proof.Machine
end

