-- ==== Sys2Proof/Machine/Memory.lean ====
section
/-! DEFINITION. The memory array: its reset contents, its canonical form, and the read and write of one cell
(10_state.md R29, 20_memory.md R60, R61). -/

namespace Sys2Proof.Machine

/-- Glyphs 0 to 7 of the default FONT (R29; assumption 2). -/
def fontGlyphsLow : List Byte :=
  [0xF0#8, 0x90#8, 0x90#8, 0x90#8, 0xF0#8] ++ [0x20#8, 0x60#8, 0x20#8, 0x20#8, 0x70#8]
  ++ [0xF0#8, 0x10#8, 0xF0#8, 0x80#8, 0xF0#8] ++ [0xF0#8, 0x10#8, 0xF0#8, 0x10#8, 0xF0#8]
  ++ [0x90#8, 0x90#8, 0xF0#8, 0x10#8, 0x10#8] ++ [0xF0#8, 0x80#8, 0xF0#8, 0x10#8, 0xF0#8]
  ++ [0xF0#8, 0x80#8, 0xF0#8, 0x90#8, 0xF0#8] ++ [0xF0#8, 0x10#8, 0x20#8, 0x40#8, 0x40#8]

/-- Glyphs 8 to F of the default FONT (R29; assumption 2). -/
def fontGlyphsHigh : List Byte :=
  [0xF0#8, 0x90#8, 0xF0#8, 0x90#8, 0xF0#8] ++ [0xF0#8, 0x90#8, 0xF0#8, 0x10#8, 0xF0#8]
  ++ [0xF0#8, 0x90#8, 0xF0#8, 0x90#8, 0x90#8] ++ [0xE0#8, 0x90#8, 0xE0#8, 0x90#8, 0xE0#8]
  ++ [0xF0#8, 0x80#8, 0x80#8, 0x80#8, 0xF0#8] ++ [0xE0#8, 0x90#8, 0x90#8, 0x90#8, 0xE0#8]
  ++ [0xF0#8, 0x80#8, 0xF0#8, 0x80#8, 0xF0#8] ++ [0xF0#8, 0x80#8, 0xF0#8, 0x80#8, 0x80#8]

/-- The default of the parameter FONT: the conventional CHIP-8 hexadecimal font, 80 bytes, as R29 lists it
[there: from general knowledge, not in source]. PRESUMED, assumption 2. -/
def defaultFont : List Byte := fontGlyphsLow ++ fontGlyphsHigh

/-- What a memory cell holds after reset with a given font table (R35, R61): FONT[a − 0x050] in 0x050..0x09F,
zero at every other address. -/
def resetByte (font : List Byte) (a : Nat) : Byte :=
  if Config.fontBase ≤ a ∧ a < Config.fontBase + Config.fontLen then font.getD (a - Config.fontBase) 0#8 else 0#8

/-- What an address that memory does not list reads as: its reset contents with the default font. -/
def Memory.unlisted (a : Nat) : Byte := resetByte defaultFont a

/-- The canonical form of memory: addresses strictly rising and below 4096, and no cell equal to what its
address reads as unlisted. Equal memories are then equal lists. -/
abbrev Memory.wf (m : Memory) : Prop :=
  m.Pairwise (fun c d => c.1 < d.1) ∧ ∀ c ∈ m, c.1 < Config.memSize ∧ c.2 ≠ Memory.unlisted c.1

/-- `MEM[a]`: the raw read of a cell (R8). -/
def Memory.read : Memory → Nat → Byte
  | [], a => Memory.unlisted a
  | (b, w) :: m, a => if a = b then w else Memory.read m a

/-- `MEM[a] <- v`: the raw write of a cell (R8), keeping the canonical form. -/
def Memory.write : Memory → Nat → Byte → Memory
  | [], a, v => if v = Memory.unlisted a then [] else [(a, v)]
  | (b, w) :: m, a, v =>
    if a < b then
      if v = Memory.unlisted a then (b, w) :: m else (a, v) :: (b, w) :: m
    else if a = b then
      if v = Memory.unlisted a then m else (a, v) :: m
    else (b, w) :: Memory.write m a v

/-- Bytes copied to consecutive cells from address `a` upward (R292, R290). -/
def Memory.writeBytes : Memory → Nat → List Byte → Memory
  | m, _, [] => m
  | m, a, v :: vs => Memory.writeBytes (Memory.write m a v) (a + 1) vs

end Sys2Proof.Machine
end

