-- ==== Sys2Proof/Machine/Ops.lean ====
section
/-! DEFINITION. The named operations that every meaning is written with: registers, the error channel, memory with its
range policy, the program counter, the call stack, the keypad and the framebuffer. -/

namespace Sys2Proof

/-- `zext_16(v)` of an address field (R7, R93). -/
def Addr12.zext (a : Addr12) : Word := a.zeroExtend 16

/-- `zext_16(v)` of a byte (R7, R93). -/
def Byte.zext (b : Byte) : Word := b.zeroExtend 16

/-- The 16 values of a four-bit number in ascending order. -/
def nibbles : List (Fin 16) := [0, 1, 2, 3, 4, 5, 6, 7, 8, 9, 10, 11, 12, 13, 14, 15]

end Sys2Proof

namespace Sys2Proof.Machine

/-! ### General registers (R20) -/

/-- `V[x]`. -/
def State.getV (s : State) (x : Reg) : Byte := s.v.get x

/-- `V[x] <- b`. -/
def State.setV (s : State) (x : Reg) (b : Byte) : State := { s with v := s.v.set x.val b x.isLt }

/-! ### The error channel (R8, R250 to R254)

The machine has no trap: an error saves nothing, switches nothing and loads no PC (R254). What stands in the place of
taking an exception is this one operation, which records the error kind for the current Step; there is no return. -/

/-- The error kinds that a Step can raise, bits 0 to 3 of STEP_ERR and of ERR (R250). -/
inductive StepError where
  /-- An UNDEF word was executed. -/
  | unknownOpcode
  /-- 2nnn with SP = 16. -/
  | stackOverflow
  /-- 00EE with SP = 0. -/
  | stackUnderflow
  /-- An effective address above 4095. -/
  | memoryOutOfRange
deriving DecidableEq, Repr

/-- The kind's bit of STEP_ERR (R250). -/
def StepError.bit : StepError → BitVec 4
  | .unknownOpcode => 0b0001#4
  | .stackOverflow => 0b0010#4
  | .stackUnderflow => 0b0100#4
  | .memoryOutOfRange => 0b1000#4

/-- Bit 4 of ERR, RomLoadFailed, which only LoadRom sets (R250, R293). -/
def romLoadFailedBit : BitVec 5 := 0b10000#5

/-- `raise E`: sets the kind's bit of STEP_ERR; control goes on (R8). ERR takes it at the end of the Step (R252). -/
def State.raise (s : State) (e : StepError) : State := { s with cur := { s.cur with err := s.cur.err ||| e.bit } }

/-! ### Memory (R8, R65, R66) -/

/-- The address check of both memory primitives: above 4095, MemoryOutOfRange is raised and nothing is aborted. -/
def State.checkAddr (s : State) (ea : Nat) : State := if ea > 4095 then s.raise .memoryOutOfRange else s

/-- The byte that a read at effective address `ea` returns: the cell `ea mod 4096`. -/
def State.readByte (s : State) (ea : Nat) : Byte := s.mem.read (ea % Config.memSize)

/-- `MemRead(ea, 1)`: the byte, and the state after the address check. -/
def State.memRead (s : State) (ea : Nat) : Byte × State := (s.readByte ea, s.checkAddr ea)

/-- `MemWrite(ea, 1, v)`: the address check, then the store to the cell `ea mod 4096`. -/
def State.memWrite (s : State) (ea : Nat) (v : Byte) : State :=
  { s.checkAddr ea with mem := s.mem.write (ea % Config.memSize) v }

/-- A word stored big-endian at a fetch address, as the fetch of R66 would read it back; raises nothing. -/
def State.placeWord (s : State) (a : Nat) (hi lo : Byte) : State :=
  { s with mem := (s.mem.write (a % Config.memSize) hi).write ((a + 1) % Config.memSize) lo }

/-! ### Program counter (R23, R148) -/

/-- `PC <- target`. -/
def State.setPc (s : State) (target : Word) : State := { s with pc := target }

/-- `PC <- PC + 2` modulo 65536: the fetch advance, and a taken skip. -/
def State.advancePc (s : State) : State := s.setPc (s.pc + 2#16)

/-- `PC <- PC − 2` modulo 65536: the roll-back of Fx0A. -/
def State.rollBackPc (s : State) : State := s.setPc (s.pc - 2#16)

/-- `if c then PC <- PC + 2`. -/
def State.skipIf (s : State) (c : Bool) : State := if c then s.advancePc else s

/-! ### Index register and timers (R22, R25, R26) -/

/-- `I <- a`. -/
def State.setI (s : State) (a : Word) : State := { s with i := a }

/-- `DT <- b`. -/
def State.setDt (s : State) (b : Byte) : State := { s with dt := b }

/-- `ST <- b`. -/
def State.setSt (s : State) (b : Byte) : State := { s with st := b }

/-! ### Call stack (R24) -/

/-- `STACK[k] <- w`. -/
def State.setSlot (s : State) (k : Fin 16) (w : Word) : State := { s with stack := s.stack.set k.val w k.isLt }

/-- `STACK[k]`. -/
def State.slot (s : State) (k : Fin 16) : Word := s.stack.get k

/-- Push: `STACK[SP] <- w; SP <- SP + 1`; none when SP = 16. -/
def State.push (s : State) (w : Word) : Option State :=
  if h : s.sp.val < 16 then some { s.setSlot ⟨s.sp.val, h⟩ w with sp := ⟨s.sp.val + 1, by omega⟩ } else none

/-- Pop: `SP <- SP − 1`, and the content of `STACK[SP]`, which the slot keeps; none when SP = 0. -/
def State.pop (s : State) : Option (Word × State) :=
  if h : 0 < s.sp.val then
    some (s.slot ⟨s.sp.val - 1, by omega⟩, { s with sp := ⟨s.sp.val - 1, by omega⟩ })
  else none

/-! ### Keypad (R27, R236) -/

/-- `KEY[k] = 1`. -/
def State.keyDown (s : State) (k : Key) : Bool := s.key.get k

/-- `min { k | KEY[k] = 1 }`, none when no key is pressed (R233). -/
def State.lowestKey (s : State) : Option Key := nibbles.find? s.keyDown

/-! ### Framebuffer (R28, R211, R212) -/

/-- `FB[cx, cy]`; a coordinate outside the grid reads as clear (no meaning reads one). -/
def Framebuffer.cell (fb : Framebuffer) (cx cy : Nat) : Bool :=
  if h : cy < 32 then fb[cy].getLsbD cx else false

/-- `FB[cx, cy] <- FB[cx, cy] XOR 1`; nothing outside the grid. -/
def Framebuffer.toggle (fb : Framebuffer) (cx cy : Nat) : Framebuffer :=
  if h : cy < 32 then fb.set cy (fb[cy] ^^^ (1#64 <<< cx)) else fb

/-- Every cell fully-clear. -/
def Framebuffer.clear : Framebuffer := Vector.replicate 32 0#64

/-- `FB[cx, cy]` of a state. -/
def State.cell (s : State) (cx cy : Nat) : Bool := Framebuffer.cell s.fb cx cy

/-- One set sprite bit at a cell inside the grid: the collision test, then the toggle (R211). -/
def State.drawCell (s : State) (cx cy : Nat) : State :=
  let s1 := if s.cell cx cy then s.setV VF 1#8 else s
  { s1 with fb := Framebuffer.toggle s1.fb cx cy }

/-- The columns `cs` of one sprite byte `b` on row cy, clipped at the right edge (R211). -/
def State.drawColumns (x0 cy : Nat) (b : Byte) : List Nat → State → State
  | [], s => s
  | c :: cs, s =>
    drawColumns x0 cy b cs (if x0 + c ≤ 63 ∧ b.getLsbD (7 - c) = true then s.drawCell (x0 + c) cy else s)

/-- The sprite rows `rs`: stop at the bottom edge, else read the row's byte at I + r and draw it (R211). -/
def State.drawRows (x0 y0 : Nat) : List Nat → State → State
  | [], s => s
  | r :: rs, s =>
    if y0 + r > 31 then s
    else
      let (b, s1) := s.memRead (s.i.toNat + r)
      drawRows x0 y0 rs (State.drawColumns x0 (y0 + r) b (List.range 8) s1)

end Sys2Proof.Machine
end

