-- ==== Sys2Proof/Machine/Flags.lean ====
section
/-! DEFINITION. The values that VF takes as a flag (10_state.md R21, 42_alu.md R172): 0 or 1, from the operands as they
were before the instruction. -/

namespace Sys2Proof.Machine

/-- A flag value: 1 if the condition holds, else 0. -/
def flag (c : Bool) : Byte := if c then 1#8 else 0#8

/-- The carry of 8xy4: the sum, taken in 9 bits or more, exceeds 255 (R166). -/
def carryFlag (a b : Byte) : Byte := flag (decide (a.toNat + b.toNat > 255))

/-- The strict comparison of 8xy5 and 8xy7: `1 if a > b else 0` (R167, R169). -/
def greaterFlag (a b : Byte) : Byte := flag (decide (a.toNat > b.toNat))

/-- The bit that 8xy6 shifts out: bit 0 (R168). -/
def lowBitFlag (a : Byte) : Byte := flag (a.getLsbD 0)

/-- The bit that 8xyE shifts out: bit 7, as 0 or 1 (R170). -/
def highBitFlag (a : Byte) : Byte := flag (a.getLsbD 7)

/-- The writes of a flag-setting instruction in their order: VF first, then Vx, so that with x = 0xF the result
wins (R9, R173). -/
def State.setFlagThenV (s : State) (x : Reg) (f r : Byte) : State := (s.setV VF f).setV x r

end Sys2Proof.Machine
end

