-- ==== Sys2Proof/Machine/Alu.lean ====
section
/-! DEFINITION. Register loads, arithmetic, logic, shifts and random (42_alu.md). Every operand is read from the state
before the instruction (R9, R123). -/

namespace Sys2Proof.Machine

/-- 6xkk (R160). -/
def execLdByte (x : Reg) (kk : Byte) (s : State) : Host.Outcome State Fault Refusal := .next (s.setV x kk)

/-- 7xkk: modulo 256, no flag (R161). -/
def execAddByte (x : Reg) (kk : Byte) (s : State) : Host.Outcome State Fault Refusal :=
  .next (s.setV x (s.getV x + kk))

/-- 8xy0 (R162). -/
def execLdReg (x y : Reg) (s : State) : Host.Outcome State Fault Refusal := .next (s.setV x (s.getV y))

/-- 8xy1 (R163). -/
def execOrReg (x y : Reg) (s : State) : Host.Outcome State Fault Refusal := .next (s.setV x (s.getV x ||| s.getV y))

/-- 8xy2 (R164). -/
def execAndReg (x y : Reg) (s : State) : Host.Outcome State Fault Refusal := .next (s.setV x (s.getV x &&& s.getV y))

/-- 8xy3 (R165). -/
def execXorReg (x y : Reg) (s : State) : Host.Outcome State Fault Refusal := .next (s.setV x (s.getV x ^^^ s.getV y))

/-- 8xy4: VF := carry, then Vx := the sum modulo 256 (R166). -/
def execAddReg (x y : Reg) (s : State) : Host.Outcome State Fault Refusal :=
  .next (s.setFlagThenV x (carryFlag (s.getV x) (s.getV y)) (s.getV x + s.getV y))

/-- 8xy5: VF := Vx > Vy, then Vx := Vx − Vy modulo 256 (R167). -/
def execSubReg (x y : Reg) (s : State) : Host.Outcome State Fault Refusal :=
  .next (s.setFlagThenV x (greaterFlag (s.getV x) (s.getV y)) (s.getV x - s.getV y))

/-- 8xy6: VF := bit 0, then Vx shifted right by one in place; Vy is not read (R168). -/
def execShr (x _y : Reg) (s : State) : Host.Outcome State Fault Refusal :=
  .next (s.setFlagThenV x (lowBitFlag (s.getV x)) (s.getV x >>> 1))

/-- 8xy7: VF := Vy > Vx, then Vx := Vy − Vx modulo 256 (R169). -/
def execSubnReg (x y : Reg) (s : State) : Host.Outcome State Fault Refusal :=
  .next (s.setFlagThenV x (greaterFlag (s.getV y) (s.getV x)) (s.getV y - s.getV x))

/-- 8xyE: VF := bit 7, then Vx shifted left by one in place; Vy is not read (R170). -/
def execShl (x _y : Reg) (s : State) : Host.Outcome State Fault Refusal :=
  .next (s.setFlagThenV x (highBitFlag (s.getV x)) (s.getV x <<< 1))

/-- Cxkk: the Step's RND input AND kk (R171). -/
def execRnd (x : Reg) (kk : Byte) (s : State) : Host.Outcome State Fault Refusal := .next (s.setV x (s.cur.rnd &&& kk))

end Sys2Proof.Machine
end

