-- ==== Sys2Proof/Machine/Operands.lean ====
section
/-! DEFINITION. The operand forms (30_encoding.md R93, 43_index_memory.md R196): immediate bytes stand as they are; what
remains is each computed address, index or digit. -/

namespace Sys2Proof.Machine

/-- The target of 1nnn and 2nnn, and the value of Annn: `zext_16(nnn)` (R93, R148). -/
def target (nnn : Addr12) : Word := nnn.zext

/-- The target of Bnnn: nnn plus V0, whatever the opcode's x nibble is; not reduced to 12 bits (R147). -/
def indexedTarget (s : State) (nnn : Addr12) : Word := nnn.zext + (s.getV 0).zext

/-- The key that Ex9E and ExA1 test: the low four bits of Vx (R236). -/
def keyIndex (b : Byte) : Key := (b.extractLsb' 0 4).toFin

/-- I of Fx1E: `(I + zext_16(a)) mod 65536` (R191). -/
def indexSum (i : Word) (a : Byte) : Word := i + a.zext

/-- I of Fx29: `0x0050 + 5 * zext_16(a)`, the whole byte, no mask (R192). -/
def glyphAddress (a : Byte) : Word := BitVec.ofNat 16 Config.fontBase + BitVec.ofNat 16 Config.glyphLen * a.zext

/-- The effective address of data access number k: `I + k`, an integer without wrap-around (R65, R77). -/
def State.ea (s : State) (k : Nat) : Nat := s.i.toNat + k

/-- The hundreds digit of a byte (R193). -/
def hundreds (a : Byte) : Byte := BitVec.ofNat 8 (a.toNat / 100)

/-- The tens digit of a byte (R193). -/
def tens (a : Byte) : Byte := BitVec.ofNat 8 (a.toNat / 10 % 10)

/-- The units digit of a byte (R193). -/
def units (a : Byte) : Byte := BitVec.ofNat 8 (a.toNat % 10)

/-- V0..Vx inclusive, in ascending order: the registers that Fx55 and Fx65 transfer (R194, R195). -/
def regsUpTo (x : Reg) : List Reg := nibbles.take (x.val + 1)

/-- The column where Dxyn starts: Vx mod 64 (R211). -/
def startColumn (a : Byte) : Nat := a.toNat % Config.fbWidth

/-- The row where Dxyn starts: Vy mod 32 (R211). -/
def startRow (a : Byte) : Nat := a.toNat % Config.fbHeight

end Sys2Proof.Machine
end

