-- ==== Sys2Proof/Machine/Control.lean ====
section
/-! DEFINITION. Control transfer (41_control_flow.md) and the UNDEF no-op (40_step_cycle.md R127). In every meaning PC
already holds the address of the instruction plus 2 (R122). -/

namespace Sys2Proof.Machine

/-- 00EE: pop into PC; with SP = 0, StackUnderflow and nothing else (R140). -/
def execRet (s : State) : Host.Outcome State Fault Refusal :=
  match s.pop with
  | some (w, t) => .next (t.setPc w)
  | none => .next (s.raise .stackUnderflow)

/-- 1nnn (R141). -/
def execJp (nnn : Addr12) (s : State) : Host.Outcome State Fault Refusal := .next (s.setPc (target nnn))

/-- 2nnn: push PC, then jump; with SP = 16, StackOverflow and nothing else (R142). -/
def execCall (nnn : Addr12) (s : State) : Host.Outcome State Fault Refusal :=
  match s.push s.pc with
  | some t => .next (t.setPc (target nnn))
  | none => .next (s.raise .stackOverflow)

/-- 3xkk (R143). -/
def execSeByte (x : Reg) (kk : Byte) (s : State) : Host.Outcome State Fault Refusal :=
  .next (s.skipIf (s.getV x == kk))

/-- 4xkk (R144). -/
def execSneByte (x : Reg) (kk : Byte) (s : State) : Host.Outcome State Fault Refusal :=
  .next (s.skipIf (s.getV x != kk))

/-- 5xy0 (R145). -/
def execSeReg (x y : Reg) (s : State) : Host.Outcome State Fault Refusal :=
  .next (s.skipIf (s.getV x == s.getV y))

/-- 9xy0 (R146). -/
def execSneReg (x y : Reg) (s : State) : Host.Outcome State Fault Refusal :=
  .next (s.skipIf (s.getV x != s.getV y))

/-- Bnnn (R147). -/
def execJpV0 (nnn : Addr12) (s : State) : Host.Outcome State Fault Refusal := .next (s.setPc (indexedTarget s nnn))

/-- UNDEF: a no-op that reports UnknownOpcode; the word decides nothing (R127). -/
def execUndef (_w : Word) (s : State) : Host.Outcome State Fault Refusal := .next (s.raise .unknownOpcode)

end Sys2Proof.Machine
end

