-- ==== Sys2Proof/Machine/Display.lean ====
section
/-! DEFINITION. Display instructions (44_display.md). -/

namespace Sys2Proof.Machine

/-- 00E0: every cell fully-clear; VF is not written (R210). -/
def execCls (s : State) : Host.Outcome State Fault Refusal := .next { s with fb := Framebuffer.clear }

/-- Dxyn: the start position is latched, VF := 0, then the n sprite rows are drawn (R211). -/
def execDrw (x y : Reg) (n : Fin 16) (s : State) : Host.Outcome State Fault Refusal :=
  .next (State.drawRows (startColumn (s.getV x)) (startRow (s.getV y)) (List.range n.val) (s.setV VF 0#8))

end Sys2Proof.Machine
end

