-- ==== Sys2Proof/Machine/Index.lean ====
section
/-! DEFINITION. Index register and memory instructions (43_index_memory.md). I is never changed by a transfer (R196). -/

namespace Sys2Proof.Machine

/-- Annn (R190). -/
def execLdI (nnn : Addr12) (s : State) : Host.Outcome State Fault Refusal := .next (s.setI (target nnn))

/-- Fx1E: modulo 65536, no flag, no error (R191). -/
def execAddI (x : Reg) (s : State) : Host.Outcome State Fault Refusal := .next (s.setI (indexSum s.i (s.getV x)))

/-- Fx29 (R192). -/
def execLdF (x : Reg) (s : State) : Host.Outcome State Fault Refusal := .next (s.setI (glyphAddress (s.getV x)))

/-- Fx33: hundreds, tens, units at I, I + 1, I + 2 (R193). -/
def execLdB (x : Reg) (s : State) : Host.Outcome State Fault Refusal :=
  let a := s.getV x
  .next (((s.memWrite (s.ea 0) (hundreds a)).memWrite (s.ea 1) (tens a)).memWrite (s.ea 2) (units a))

/-- The stores of Fx55 in order; `s0` is the state whose registers and I were latched. -/
def State.storeAll (s0 : State) : List Reg → State → State
  | [], s => s
  | r :: rs, s => storeAll s0 rs (s.memWrite (s0.ea r.val) (s0.getV r))

/-- The loads of Fx65 in order. -/
def State.loadAll : List Reg → State → State
  | [], s => s
  | r :: rs, s =>
    let (b, s1) := s.memRead (s.ea r.val)
    loadAll rs (s1.setV r b)

/-- Fx55: V0..Vx to I..I + x (R194). -/
def execStoreRegs (x : Reg) (s : State) : Host.Outcome State Fault Refusal := .next (State.storeAll s (regsUpTo x) s)

/-- Fx65: V0..Vx from I..I + x (R195). -/
def execLoadRegs (x : Reg) (s : State) : Host.Outcome State Fault Refusal := .next (State.loadAll (regsUpTo x) s)

end Sys2Proof.Machine
end

