-- ==== Sys2Proof/Machine/Keypad.lean ====
section
/-! DEFINITION. Keypad and timer instructions (45_keypad_timers.md). The Step's tick comes after them (R124). -/

namespace Sys2Proof.Machine

/-- Ex9E (R230). -/
def execSkp (x : Reg) (s : State) : Host.Outcome State Fault Refusal := .next (s.skipIf (s.keyDown (keyIndex (s.getV x))))

/-- ExA1 (R231). -/
def execSknp (x : Reg) (s : State) : Host.Outcome State Fault Refusal :=
  .next (s.skipIf (!s.keyDown (keyIndex (s.getV x))))

/-- Fx07 (R232). -/
def execLdVxDt (x : Reg) (s : State) : Host.Outcome State Fault Refusal := .next (s.setV x s.dt)

/-- Fx15 (R234). -/
def execLdDtVx (x : Reg) (s : State) : Host.Outcome State Fault Refusal := .next (s.setDt (s.getV x))

/-- Fx18 (R235). -/
def execLdStVx (x : Reg) (s : State) : Host.Outcome State Fault Refusal := .next (s.setSt (s.getV x))

/-- Fx0A: with no key pressed PC goes back to this instruction; else Vx := the lowest pressed key (R233). -/
def execLdVxK (x : Reg) (s : State) : Host.Outcome State Fault Refusal :=
  match s.lowestKey with
  | none => .next s.rollBackPc
  | some k => .next (s.setV x (BitVec.ofNat 8 k.val))

end Sys2Proof.Machine
end

