-- ==== Sys2Proof/Machine/Cycle.lean ====
section
/-! DEFINITION. The Step operation (40_step_cycle.md): fetch, advance, dispatch, execute, tick, and the step report. -/

namespace Sys2Proof.Machine

/-- The step report, the result of a Step and no part of the state (R31, R125, R251). -/
structure StepReport where
  /-- STEP_ERR[3:0]: the error kinds raised during the Step. -/
  stepErr : BitVec 4
  /-- STEP_PC[15:0]: PC when the Step began. -/
  stepPc : Word
  /-- STEP_OPCODE[15:0]: the word fetched. -/
  stepOpcode : Word
deriving DecidableEq, Repr

/-- The word that a Step starting in this state fetches: the cells PC mod 4096 and (PC + 1) mod 4096, the first in bits
15:8 (R62, R121). -/
def State.opcode (s : State) : Word := wordOfBytes (s.readByte s.pc.toNat) (s.readByte (s.pc.toNat + 1))

/-- The opening of a Step (R120): STEP_ERR <- 0 and the RND input latched, the two fetch reads with their
address checks (R66, R121), the PC advance (R122). What the handler runs on. -/
def State.beginStep (s : State) (rnd : Byte) : State :=
  let s0 : State := { s with cur := { rnd := rnd, err := 0#4 } }
  ((s0.checkAddr s0.pc.toNat).checkAddr (s0.pc.toNat + 1)).advancePc

/-- A timer's tick: down by one, floor zero (R124). -/
def tickByte (b : Byte) : Byte := if b = 0#8 then 0#8 else b - 1#8

/-- The closing of a Step (R120): both timers tick, ERR takes STEP_ERR, and the Step's scratch is dropped. -/
def State.endStep (s : State) : State :=
  { s with dt := tickByte s.dt, st := tickByte s.st, err := s.err ||| s.cur.err.zeroExtend 5, cur := StepLocal.idle }

/-- `Step(rnd)` of R120: the state after it and the step report. -/
def stepWith (rnd : Byte) (s : State) : Host.Outcome (State × StepReport) Fault Refusal :=
  match exec (decodeWord s.opcode) (s.beginStep rnd) with
  | .next t => .next (t.endStep, { stepErr := t.cur.err, stepPc := s.pc, stepOpcode := s.opcode })
  | .fault f => .fault f
  | .refused r => .refused r

/-- The entropy source's next byte taken from it (R32, R268). -/
def State.draw (s : State) : State := { s with draws := s.draws + 1 }

/-- A Step whose RND input is the entropy source's next byte. -/
def stepFresh (s : State) : Host.Outcome State Fault Refusal :=
  match stepWith (Config.rnd s.draws) s.draw with
  | .next (t, _) => .next t
  | .fault f => .fault f
  | .refused r => .refused r

/-- The report that the Step from this state hands to the host, with the RND input of `stepFresh`. -/
def stepReport (s : State) : Option StepReport :=
  match stepWith (Config.rnd s.draws) s.draw with
  | .next (_, r) => some r
  | _ => none

/-- The state with a word where the next Step fetches it (R66, R103). -/
def State.placeFetchWord (s : State) (w : Word) : State := s.placeWord s.pc.toNat (highByte w) (lowByte w)

end Sys2Proof.Machine
end

