-- ==== Sys2Proof/Machine/Step.lean ====
section
/-! DEFINITION. One step of the machine, and a word placed where it fetches. -/

namespace Sys2Proof.Machine

/-- One Step (40_step_cycle.md R120), its RND input the entropy source's next byte (assumption 3). -/
def step (s : State) : Host.Outcome State Fault Refusal := stepFresh s

/-- The 16-bit word `w` (its bits above `nbits` zero) stored big-endian at PC, so that the next step fetches and
runs it (assumptions 9 and 13). -/
def State.withFetchWord (s : State) (nbits w : Nat) : State := s.placeFetchWord (BitVec.ofNat 16 (w % 2 ^ nbits))

end Sys2Proof.Machine
end

