-- ==== Sys2Proof/Machine/HostOps.lean ====
section
/-! DEFINITION. The operations of the host (60_exceptions.md R265): each one atomic move between Steps
(assumption 10). -/

namespace Sys2Proof.Machine

/-- The 80 bytes of the parameter FONT (R5, R29). -/
abbrev Font := Vector Byte 80

/-- The machine after Reset with a font table (R35, R290). `State.reset` is this with the default font. -/
def State.resetWith (font : Font) : State :=
  { State.reset with mem := Memory.writeBytes [] Config.fontBase font.toList }

/-- Reset, between Steps: everything of the spec's state tuple as after construction. The entropy source is outside the
core and is not rewound (R32, R290; assumption 3). -/
def State.hostReset (s : State) (font : Font) : State := { State.resetWith font with draws := s.draws }

/-- What LoadRom answers (R265). -/
inductive LoadResult where
  | ok
  | romLoadFailed
deriving DecidableEq, Repr

/-- LoadRom: at most 3584 bytes are copied to 0x200 upward and nothing else changes (R292); a longer buffer is
rejected whole, and ERR bit 4 is set (R293). -/
def State.loadRom (s : State) (bytes : List Byte) : State × LoadResult :=
  if bytes.length ≤ Config.romMax then
    ({ s with mem := Memory.writeBytes s.mem Config.progBase bytes }, .ok)
  else ({ s with err := s.err ||| romLoadFailedBit }, .romLoadFailed)

/-- SetKey: one flag of the latch (R266). -/
def State.setKey (s : State) (k : Key) (pressed : Bool) : State := { s with key := s.key.set k.val pressed k.isLt }

/-- The bulk form of SetKey: all 16 flags (R265, R266). -/
def State.setKeys (s : State) (flags : Vector Bool 16) : State := { s with key := flags }

/-- ReadFramebuffer: the 2048 cells in row-major order, cell (cx, cy) at index cy × 64 + cx, a set cell as the host's
FB_SET_VALUE and a clear cell as 0 (R28, R213). -/
def State.framebuffer (s : State) (fbSetValue : Nat) : List Nat :=
  (List.range (Config.fbWidth * Config.fbHeight)).map
    (fun k => if s.cell (k % Config.fbWidth) (k / Config.fbWidth) then fbSetValue else 0)

/-- The moves of the host, and no others (R265). -/
inductive HostMove where
  | reset (font : Font)
  | loadRom (bytes : List Byte)
  | setKey (k : Key) (pressed : Bool)
  | setKeys (flags : Vector Bool 16)
  | step (rnd : Byte)
  | readFramebuffer
  | readState
deriving DecidableEq, Repr

/-- What a move hands back to the host. -/
inductive HostResult where
  | nothing
  | load (r : LoadResult)
  | report (r : StepReport)
  | cells (values : List Nat)
  | state (s : State)
deriving DecidableEq, Repr

/-- One move of the host: the state after it and its result. `fbSetValue` is the host's parameter FB_SET_VALUE. -/
def hostMove (fbSetValue : Nat) (m : HostMove) (s : State) : Host.Outcome (State × HostResult) Fault Refusal :=
  match m with
  | .reset font => .next (s.hostReset font, .nothing)
  | .loadRom bytes => .next ((s.loadRom bytes).1, .load (s.loadRom bytes).2)
  | .setKey k pressed => .next (s.setKey k pressed, .nothing)
  | .setKeys flags => .next (s.setKeys flags, .nothing)
  | .step rnd =>
    match stepWith rnd s with
    | .next (t, r) => .next (t, .report r)
    | .fault f => .fault f
    | .refused r => .refused r
  | .readFramebuffer => .next (s, .cells (s.framebuffer fbSetValue))
  | .readState => .next (s, .state s)

end Sys2Proof.Machine
end

