-- ==== Sys2Proof/Safety.lean ====
section
/-! DEFINITION. The terms that claims about the machine are stated in: the pieces of state and what it is to leave them
alone, the access matrix of 10_state.md R34, the invariant, and what counts as a run without a recorded error. -/

namespace Sys2Proof.Machine

/-! ### Pieces of state -/

/-- One piece of state: a register, a stack slot, a key, a framebuffer cell, a memory cell (the columns of R34, taken
apart), the two error registers, and the model's own two inputs. -/
inductive Component where
  | v (r : Reg)
  | i
  | pc
  | stack (k : Fin 16)
  | sp
  | dt
  | st
  | key (k : Key)
  | fb (cx : Fin 64) (cy : Fin 32)
  | mem (a : Fin 4096)
  | err
  | stepErr
  | rnd
  | draws
deriving DecidableEq, Repr

/-- Two states hold the same in one piece of state. Memory is compared by reading one cell, the framebuffer by
one cell. -/
def Same (s t : State) : Component → Prop
  | .v r => s.getV r = t.getV r
  | .i => s.i = t.i
  | .pc => s.pc = t.pc
  | .stack k => s.slot k = t.slot k
  | .sp => s.sp = t.sp
  | .dt => s.dt = t.dt
  | .st => s.st = t.st
  | .key k => s.keyDown k = t.keyDown k
  | .fb cx cy => s.cell cx.val cy.val = t.cell cx.val cy.val
  | .mem a => s.mem.read a.val = t.mem.read a.val
  | .err => s.err = t.err
  | .stepErr => s.cur.err = t.cur.err
  | .rnd => s.cur.rnd = t.cur.rnd
  | .draws => s.draws = t.draws

/-- The frame: every piece of state outside `changed` is in `t` as it was in `s`. -/
def KeepsAllBut (changed : Component → Prop) (s t : State) : Prop := ∀ c, ¬ changed c → Same s t c

/-- `t` has the error kinds of `s` and, if the condition holds, the kind `e` (R8, R250). -/
def RaisesIf (c : Prop) [Decidable c] (e : StepError) (s t : State) : Prop :=
  t.cur.err = s.cur.err ||| (if c then e.bit else 0#4)

/-- The cell that data access number k uses: `(I + k) mod 4096` (R77). -/
def State.dataCell (s : State) (k : Nat) : Nat := s.ea k % Config.memSize

/-- Every word that the mask and match of an opcode-table row select decodes to the row's instruction, its operands the
fields of the word (R91, R96: "iff (w AND mask) = match"). -/
def RowDecodes (mask bits : Word) (f : Word → Instr) : Prop := ∀ w : Word, w &&& mask = bits → decodeWord w = f w

/-- A data access of the handler uses an effective address above 4095 (the rows "Dxyn; Fx33; Fx55; Fx65" of R250, the
accesses of R77; a clipped sprite row is not read, R211). -/
def accessesOutOfRange (s : State) : Instr → Prop
  | .drw _ y n => ∃ r < n.val, startRow (s.getV y) + r ≤ 31 ∧ s.ea r > 4095
  | .ldB _ => ∃ k < 3, s.ea k > 4095
  | .storeRegs x => ∃ k ≤ x.val, s.ea k > 4095
  | .loadRegs x => ∃ k ≤ x.val, s.ea k > 4095
  | _ => False

/-! ### The picture a sprite draws (R211, R212) -/

/-- The sprite has a set bit for the cell (cx, cy): the cell is in column c = cx − x0 of 0..7 and row r = cy − y0 of
0..n−1, and bit 7 − c of the byte at I + r is 1. -/
def State.spriteBit (s : State) (x0 y0 n cx cy : Nat) : Bool :=
  decide (x0 ≤ cx ∧ cx < x0 + 8 ∧ y0 ≤ cy ∧ cy < y0 + n) &&
    (s.readByte (s.ea (cy - y0))).getLsbD (7 - (cx - x0))

/-! ### The access matrix (R34) -/

/-- The pieces that a handler may write when it runs on `s`: the "w" of its row of R34, and STEP_ERR where the row's
instruction can raise an error. Of the stack, of memory and of the framebuffer it is only what the instruction addresses: the
slot STACK[SP] of 2nnn and none of 00EE (R24), the cells of I..I + 2 of Fx33 and of I..I + x of Fx55 (R193, R194), the cells
under the set bits of the sprite of Dxyn (R211). -/
def handlerWrites (s : State) : Instr → Component → Prop
  | .cls, c => ∃ cx cy, c = .fb cx cy
  | .ret, c => c = .pc ∨ c = .sp ∨ c = .stepErr
  | .jp _, c => c = .pc
  | .call _, c => c = .pc ∨ c = .sp ∨ (∃ k : Fin 16, k.val = s.sp.val ∧ c = .stack k) ∨ c = .stepErr
  | .seByte _ _, c => c = .pc
  | .sneByte _ _, c => c = .pc
  | .seReg _ _, c => c = .pc
  | .sneReg _ _, c => c = .pc
  | .ldByte x _, c => c = .v x
  | .addByte x _, c => c = .v x
  | .ldReg x _, c => c = .v x
  | .orReg x _, c => c = .v x
  | .andReg x _, c => c = .v x
  | .xorReg x _, c => c = .v x
  | .addReg x _, c => c = .v VF ∨ c = .v x
  | .subReg x _, c => c = .v VF ∨ c = .v x
  | .shr x _, c => c = .v VF ∨ c = .v x
  | .subnReg x _, c => c = .v VF ∨ c = .v x
  | .shl x _, c => c = .v VF ∨ c = .v x
  | .ldI _, c => c = .i
  | .jpV0 _, c => c = .pc
  | .rnd x _, c => c = .v x
  | .drw x y n, c => c = .v VF ∨ c = .stepErr ∨ ∃ cx cy, c = .fb cx cy ∧
      s.spriteBit (startColumn (s.getV x)) (startRow (s.getV y)) n.val cx.val cy.val = true
  | .skp _, c => c = .pc
  | .sknp _, c => c = .pc
  | .ldVxDt x, c => c = .v x
  | .ldDtVx _, c => c = .dt
  | .ldStVx _, c => c = .st
  | .ldVxK x, c => c = .v x ∨ c = .pc
  | .addI _, c => c = .i
  | .ldF _, c => c = .i
  | .ldB _, c => (∃ a : Fin 4096, (∃ k < 3, a.val = s.dataCell k) ∧ c = .mem a) ∨ c = .stepErr
  | .storeRegs x, c => (∃ a : Fin 4096, (∃ k ≤ x.val, a.val = s.dataCell k) ∧ c = .mem a) ∨ c = .stepErr
  | .loadRegs x, c => (∃ r, r ≤ x ∧ c = .v r) ∨ c = .stepErr
  | .undef _, c => c = .stepErr

/-- The pieces that a handler may read: the "r" of its row of R34. -/
def handlerReads : Instr → Component → Prop
  | .cls, _ => False
  | .ret, c => c = .sp ∨ ∃ k, c = .stack k
  | .jp _, _ => False
  | .call _, c => c = .pc ∨ c = .sp ∨ ∃ k, c = .stack k
  | .seByte x _, c => c = .v x ∨ c = .pc
  | .sneByte x _, c => c = .v x ∨ c = .pc
  | .seReg x y, c => c = .v x ∨ c = .v y ∨ c = .pc
  | .sneReg x y, c => c = .v x ∨ c = .v y ∨ c = .pc
  | .ldByte _ _, _ => False
  | .addByte x _, c => c = .v x
  | .ldReg _ y, c => c = .v y
  | .orReg x y, c => c = .v x ∨ c = .v y
  | .andReg x y, c => c = .v x ∨ c = .v y
  | .xorReg x y, c => c = .v x ∨ c = .v y
  | .addReg x y, c => c = .v x ∨ c = .v y
  | .subReg x y, c => c = .v x ∨ c = .v y
  | .shr x _, c => c = .v x
  | .subnReg x y, c => c = .v x ∨ c = .v y
  | .shl x _, c => c = .v x
  | .ldI _, _ => False
  | .jpV0 _, c => c = .v 0
  | .rnd _ _, c => c = .rnd
  | .drw x y _, c => c = .v x ∨ c = .v y ∨ c = .i ∨ (∃ cx cy, c = .fb cx cy) ∨ ∃ a, c = .mem a
  | .skp x, c => c = .v x ∨ c = .pc ∨ ∃ k, c = .key k
  | .sknp x, c => c = .v x ∨ c = .pc ∨ ∃ k, c = .key k
  | .ldVxDt _, c => c = .dt
  | .ldDtVx x, c => c = .v x
  | .ldStVx x, c => c = .v x
  | .ldVxK _, c => c = .pc ∨ ∃ k, c = .key k
  | .addI x, c => c = .v x ∨ c = .i
  | .ldF x, c => c = .v x
  | .ldB x, c => c = .v x ∨ c = .i
  | .storeRegs x, c => (∃ r, r ≤ x ∧ c = .v r) ∨ c = .i
  | .loadRegs _, c => c = .i ∨ ∃ a, c = .mem a
  | .undef _, _ => False

/-! ### The invariant, and runs without a recorded error -/

/-- Between Steps: memory is in its canonical form (its cells are below 4096), and no Step's scratch is left over
(R30, R33: nothing of a Step persists but the state tuple). That 0 ≤ SP ≤ 16 and every width (R37) are in the types. -/
def State.Inv (s : State) : Prop := s.mem.wf ∧ s.cur = StepLocal.idle

/-- "No fault recorded" since reset: ERR = 0 (R252). -/
def State.noErrorRecorded (s : State) : Prop := s.err = 0#5

/-- The states that the host can bring about from reset by its moves (R265), with any FB_SET_VALUE. -/
inductive Reachable : State → Prop where
  | reset : Reachable State.reset
  | move (fbSetValue : Nat) (m : HostMove) (r : HostResult) (s t : State) :
      Reachable s → hostMove fbSetValue m s = .next (t, r) → Reachable t
  | fresh (s t : State) : Reachable s → step s = .next t → Reachable t

end Sys2Proof.Machine
end

