-- ==== Sys2Proof/Certificates/Slice0/Obligations.lean ====
section
/-! DEFINITION. The statements for the provers. Each cites the rule of spec/ that it formalises; the ones that rest on a
choice of the model say so. -/

open Sys2Proof Sys2Proof.Machine

/-! ### Encoding -/

/-- Words written out from R96's patterns, one or more of each format of R92, with an alias of R97, the all-zero word and two
UNDEF words of R98. -/
def Obligations.SpecWordsDecodeAsListed : Prop :=
  decode [0x00#8, 0xE0#8] = .ok (.cls, []) ∧ decode [0x00#8, 0x00#8] = .ok (.cls, []) ∧
  decode [0x0A#8, 0xBE#8] = .ok (.ret, []) ∧ decode [0x23#8, 0x00#8] = .ok (.call 0x300#12, []) ∧
  decode [0x60#8, 0x05#8] = .ok (.ldByte 0 0x05#8, []) ∧ decode [0x51#8, 0x2F#8] = .ok (.seReg 1 2, []) ∧
  decode [0x81#8, 0x24#8] = .ok (.addReg 1 2, []) ∧ decode [0xA5#8, 0x00#8] = .ok (.ldI 0x500#12, []) ∧
  decode [0xC3#8, 0x0F#8] = .ok (.rnd 3 0x0F#8, []) ∧ decode [0xD1#8, 0x21#8] = .ok (.drw 1 2 1, []) ∧
  decode [0xE1#8, 0x31#8] = .ok (.sknp 1, []) ∧ decode [0xF0#8, 0x29#8] = .ok (.ldF 0, []) ∧
  decode [0xFF#8, 0x55#8] = .ok (.storeRegs 15, []) ∧ decode [0x80#8, 0x08#8] = .ok (.undef 0x8008#16, []) ∧
  decode [0x01#8, 0x23#8] = .ok (.undef 0x0123#16, [])

/-- R95 in the mask form of R96: a word decodes to a row's instruction exactly when the row selects it, and to UNDEF
exactly when no row does. -/
def Obligations.DecoderMatchesOpcodeMap : Prop :=
  ∀ w : Word, (∀ r ∈ opcodeRows, r.selects w = true ↔ (decodeWord w).row = r.row) ∧
    ((∀ r ∈ opcodeRows, r.selects w = false) ↔ decodeWord w = .undef w)

/-- R97, R91: a selected word has the operands of its canonical word: decoding and encoding it keeps every bit that the
canonical pattern leaves to operands and sets the pattern's fixed bits; the alias and the canonical word decode alike. -/
def Obligations.AliasesDecodeAsTheirCanonicalWord : Prop :=
  ∀ w : Word, ∀ r ∈ opcodeRows, r.selects w = true →
    encodeWord (decodeWord w) = (w &&& ~~~r.canonicalMask) ||| r.canonicalBits ∧
    decodeWord (encodeWord (decodeWord w)) = decodeWord w

/-- R98: the UNDEF words are exactly those of its list (a) to (d), and WellFormed admits an UNDEF term for just these. (The
rule's counts of them are not stated.) -/
def Obligations.UndefWordsAreThoseListed : Prop :=
  ∀ w : Word, (decodeWord w = .undef w ↔
    (fieldP w = 0x0#4 ∧ selectorN w ≠ 0x0#4 ∧ selectorN w ≠ 0xE#4) ∨
    (fieldP w = 0x8#4 ∧ selectorN w ∈ [0x8#4, 0x9#4, 0xA#4, 0xB#4, 0xC#4, 0xD#4, 0xF#4]) ∨
    (fieldP w = 0xE#4 ∧ selectorN w ≠ 0x1#4 ∧ selectorN w ≠ 0xE#4) ∨
    (fieldP w = 0xF#4 ∧
      fieldKK w ∉ [0x07#8, 0x0A#8, 0x15#8, 0x18#8, 0x1E#8, 0x29#8, 0x33#8, 0x55#8, 0x65#8])) ∧
  ((Instr.undef w).wellFormed = true ↔ decodeWord w = .undef w)

/-- Decode of encode, for every well-formed instruction with every operand, whatever bytes follow. -/
def Obligations.DecodeOfEncodeIsIdentity : Prop :=
  ∀ (i : Instr) (rest : List Byte), i.wellFormed = true → decode (encode i ++ rest) = .ok (i, rest)

/-- Whatever the decoder answers is well-formed: no word decodes to an UNDEF term of a word that a handler owns. -/
def Obligations.DecodedInstructionsAreWellFormed : Prop :=
  ∀ (bytes rest : List Byte) (i : Instr), decode bytes = .ok (i, rest) → i.wellFormed = true ∧ bytes.length = rest.length + 2

/-! ### The Step -/

/-- When the two bytes at PC decode to `i`, a step runs `exec i` on the opened Step and closes it (R120); `beginStep` and
`endStep` are stated in FetchReadsBigEndianAndAdvances and StepTicksTimersAndKeepsErrors. -/
def Obligations.StepRunsTheDecodedInstruction : Prop :=
  ∀ (s t : State) (i : Instr),
    decode [s.readByte s.pc.toNat, s.readByte (s.pc.toNat + 1)] = .ok (i, []) →
    exec i (s.draw.beginStep (Config.rnd s.draws)) = .next t → step s = .next t.endStep

/-- R121, R122: the opcode is `MEM[PC mod 4096] ++ MEM[(PC + 1) mod 4096]`, an address above 4095 is reported and stops
nothing, PC advances by 2 modulo 65536 before the handler, and the handler of that opcode runs on what results. -/
def Obligations.FetchReadsBigEndianAndAdvances : Prop :=
  ∀ (rnd : Byte) (s : State),
    s.opcode.toNat = 256 * (s.mem.read (s.pc.toNat % 4096)).toNat + (s.mem.read ((s.pc.toNat + 1) % 4096)).toNat ∧
    (s.beginStep rnd).pc.toNat = (s.pc.toNat + 2) % 65536 ∧
    (s.beginStep rnd).cur.err = (if s.pc.toNat > 4095 ∨ s.pc.toNat + 1 > 4095 then StepError.memoryOutOfRange.bit else 0#4) ∧
    (s.beginStep rnd).cur.rnd = rnd ∧
    KeepsAllBut (· ∈ [.pc, .stepErr, .rnd]) s (s.beginStep rnd) ∧
    ∃ u r, exec (decodeWord s.opcode) (s.beginStep rnd) = .next u ∧ stepWith rnd s = .next (u.endStep, r) ∧
      r.stepOpcode = s.opcode

/-- R124: after the handler, whatever it was, each timer goes down by one with floor zero, once; ERR takes STEP_ERR (R120,
R252); nothing else changes but that the Step's scratch is dropped. -/
def Obligations.StepTicksTimersAndKeepsErrors : Prop :=
  ∀ (rnd : Byte) (s : State), ∃ u t r,
    exec (decodeWord s.opcode) (s.beginStep rnd) = .next u ∧ stepWith rnd s = .next (t, r) ∧
    t.dt.toNat = u.dt.toNat - 1 ∧ t.st.toNat = u.st.toNat - 1 ∧
    r.stepErr = u.cur.err ∧ t.err = u.err ||| r.stepErr.zeroExtend 5 ∧
    KeepsAllBut (· ∈ [.dt, .st, .err, .stepErr, .rnd]) u t

/-- R125, R253: no instruction, no Step and no step ever ends in a fault or a refusal, from any state whatever. -/
def Obligations.EveryStepCompletes : Prop :=
  (∀ (i : Instr) (s : State), ∃ t, exec i s = .next t) ∧
  (∀ (rnd : Byte) (s : State), ∃ t r, stepWith rnd s = .next (t, r)) ∧
  (∀ s : State, ∃ t, step s = .next t ∧ t.draws = s.draws + 1)

/-- R251 with the conditions of R250: the report of every Step names its PC and opcode, and each error bit is set exactly when
its kind was raised. -/
def Obligations.StepReportNamesTheErrors : Prop :=
  ∀ (rnd : Byte) (s : State), ∃ t r, stepWith rnd s = .next (t, r) ∧ r.stepPc = s.pc ∧ r.stepOpcode = s.opcode ∧
    (r.stepErr.getLsbD 0 = true ↔ ∃ w, decodeWord s.opcode = .undef w) ∧
    (r.stepErr.getLsbD 1 = true ↔ ∃ nnn, decodeWord s.opcode = .call nnn ∧ s.sp.val = 16) ∧
    (r.stepErr.getLsbD 2 = true ↔ decodeWord s.opcode = .ret ∧ s.sp.val = 0) ∧
    (r.stepErr.getLsbD 3 = true ↔ s.pc.toNat + 1 > 4095 ∨ accessesOutOfRange s (decodeWord s.opcode))

/-- R256: a handler raises at most one kind, and the only combinations of a Step are none, one kind, and MemoryOutOfRange from
the fetch with one kind of the handler. -/
def Obligations.ErrorKindsCombineOnlyWithTheFetch : Prop :=
  (∀ (i : Instr) (s t : State), exec i s = .next t →
    ∃ e ∈ [0b0000#4, 0b0001#4, 0b0010#4, 0b0100#4, 0b1000#4], t.cur.err = s.cur.err ||| e) ∧
  (∀ (rnd : Byte) (s t : State) (r : StepReport), stepWith rnd s = .next (t, r) →
    r.stepErr ∈ [0b0000#4, 0b0001#4, 0b0010#4, 0b0100#4, 0b1000#4, 0b1001#4, 0b1010#4, 0b1100#4])

/-- The reset state meets the invariant. -/
def Obligations.ResetMeetsTheInvariant : Prop :=
  State.reset.Inv ∧ ∀ font : Font, (State.resetWith font).Inv

/-- Every step keeps the invariant, from every state that meets it. -/
def Obligations.EveryStepKeepsTheInvariant : Prop :=
  ∀ s t : State, s.Inv → step s = .next t → t.Inv

/-- Every move of the host keeps the invariant, Step with any RND input among them. -/
def Obligations.EveryHostMoveKeepsTheInvariant : Prop :=
  ∀ (fbSetValue : Nat) (m : HostMove) (s t : State) (r : HostResult),
    s.Inv → hostMove fbSetValue m s = .next (t, r) → t.Inv

/-- R252, R31: ERR accumulates the Step's errors, a bit of it never falls in a Step, and it never changes what a Step
does: with any other content of ERR the Step gives the same report and the same state but for ERR. -/
def Obligations.ErrIsStickyAndNeverRead : Prop :=
  ∀ (rnd : Byte) (s : State) (e : BitVec 5), ∃ t r,
    stepWith rnd s = .next (t, r) ∧ t.err = s.err ||| r.stepErr.zeroExtend 5 ∧ s.err &&& t.err = s.err ∧
    stepWith rnd { s with err := e } = .next ({ t with err := e ||| r.stepErr.zeroExtend 5 }, r)

/-- The write columns of R34: a handler leaves every piece of state outside its row as it was, and of the stack, of memory
and of the framebuffer every slot and cell that the instruction does not address: slot SP of 2nnn alone and none of 00EE, the
cells `dataCell k` of Fx33 (k < 3) and of Fx55 (k ≤ x), the cells under the sprite's set bits. -/
def Obligations.HandlersWriteOnlyTheirColumns : Prop :=
  ∀ (i : Instr) (s t : State), exec i s = .next t → KeepsAllBut (handlerWrites s i) s t

/-- The read columns of R34: on two states that agree on what the handler's row reads (their memories in canonical form), each
piece of state ends either the same in both or untouched in both, and the handler raises the same error kinds. -/
def Obligations.HandlersReadOnlyTheirColumns : Prop :=
  ∀ (i : Instr) (s s' t t' : State), s.mem.wf → s'.mem.wf → (∀ c, handlerReads i c → Same s s' c) →
    exec i s = .next t → exec i s' = .next t' →
    (∀ c, c ≠ .stepErr → Same t t' c ∨ (Same s t c ∧ Same s' t' c)) ∧
    ∃ e : BitVec 4, t.cur.err = s.cur.err ||| e ∧ t'.cur.err = s'.cur.err ||| e

/-- R299: a jump to itself at an address up to 0xFFE changes nothing but the timers, which run down; with both at zero it is a
fixed point of Step. -/
def Obligations.SelfJumpOnlyRunsTheTimersDown : Prop :=
  ∀ (rnd : Byte) (s : State) (a : Addr12), a.toNat ≤ 0xFFE → s.pc = a.zext → s.opcode = 0x1000#16 + a.zext →
    s.cur = StepLocal.idle → ∃ r, r.stepErr = 0#4 ∧
      stepWith rnd s = .next ({ s with dt := tickByte s.dt, st := tickByte s.st }, r) ∧
      (s.dt = 0#8 → s.st = 0#8 → stepWith rnd s = .next (s, r))

/-- R72: two registers stored over the next instruction are the next opcode, with no other action. -/
def Obligations.StoreIsSeenByTheNextFetch : Prop :=
  ∀ (rnd : Byte) (s : State) (x : Reg), s.mem.wf → decodeWord s.opcode = .storeRegs x → 1 ≤ x.val → s.i = s.pc + 2#16 →
    ∃ t r, stepWith rnd s = .next (t, r) ∧ t.opcode = wordOfBytes (s.getV 0) (s.getV 1)

/-- R65: a store goes to the cell at the address modulo 4096 and to no other, a read takes the latest write, and
either reports an address above 4095 and nothing else. -/
def Obligations.MemoryWrapsAndReports : Prop :=
  ∀ (s : State) (ea : Nat) (b : Byte), s.mem.wf →
    (∀ ea', (s.memWrite ea b).readByte ea' = if ea' % 4096 = ea % 4096 then b else s.readByte ea') ∧
    RaisesIf (ea > 4095) .memoryOutOfRange s (s.memWrite ea b) ∧
    KeepsAllBut (fun c => (∃ a : Fin 4096, a.val = ea % 4096 ∧ c = .mem a) ∨ c = .stepErr) s (s.memWrite ea b) ∧
    (s.memRead ea).1 = s.mem.read (ea % 4096) ∧
    RaisesIf (ea > 4095) .memoryOutOfRange s (s.memRead ea).2 ∧
    KeepsAllBut (· = .stepErr) s (s.memRead ea).2

/-! ### Control transfer -/

/-- R140. -/
def Obligations.ReturnPopsOrReportsUnderflow : Prop :=
  RowDecodes 0xF00F#16 0x000E#16 (fun _ => .ret) ∧
  (∀ (s : State) (k : Fin 16), s.sp.val = k.val + 1 → ∃ t, exec .ret s = .next t ∧
    t.pc = s.slot k ∧ t.sp.val = k.val ∧ KeepsAllBut (· ∈ [.pc, .sp]) s t) ∧
  (∀ s : State, s.sp.val = 0 → ∃ t, exec .ret s = .next t ∧
    RaisesIf True .stackUnderflow s t ∧ KeepsAllBut (· = .stepErr) s t)

/-- R142. -/
def Obligations.CallPushesOrReportsOverflow : Prop :=
  RowDecodes 0xF000#16 0x2000#16 (fun w => .call (fieldNNN w)) ∧
  (∀ (s : State) (nnn : Addr12) (k : Fin 16), s.sp.val = k.val → ∃ t, exec (.call nnn) s = .next t ∧
    t.slot k = s.pc ∧ t.sp.val = k.val + 1 ∧ t.pc.toNat = nnn.toNat ∧ KeepsAllBut (· ∈ [.stack k, .sp, .pc]) s t) ∧
  (∀ (s : State) (nnn : Addr12), s.sp.val = 16 → ∃ t, exec (.call nnn) s = .next t ∧
    RaisesIf True .stackOverflow s t ∧ KeepsAllBut (· = .stepErr) s t)

/-- R24, the reading of 90_conflicts.md C3: a return that meets the stack as a call left it comes back to the
instruction after the call with SP as it was, whatever happened to the rest of the machine between. -/
def Obligations.CallThenReturnComesBack : Prop :=
  ∀ (s t u : State) (nnn : Addr12), s.sp.val < 16 → exec (.call nnn) s = .next t → u.stack = t.stack → u.sp = t.sp →
    ∃ v, exec .ret u = .next v ∧ v.pc = s.pc ∧ v.sp = s.sp ∧ v.stack = u.stack

/-- R141, R147: PC takes nnn, or nnn plus V0 in full. -/
def Obligations.JumpsSetPc : Prop :=
  RowDecodes 0xF000#16 0x1000#16 (fun w => .jp (fieldNNN w)) ∧
  RowDecodes 0xF000#16 0xB000#16 (fun w => .jpV0 (fieldNNN w)) ∧
  ∀ (s : State) (nnn : Addr12),
    (∃ t, exec (.jp nnn) s = .next t ∧ t.pc.toNat = nnn.toNat ∧ KeepsAllBut (· = .pc) s t) ∧
    (∃ t, exec (.jpV0 nnn) s = .next t ∧ t.pc.toNat = nnn.toNat + (s.getV 0).toNat ∧ KeepsAllBut (· = .pc) s t)

/-- R143, R144, R145, R146: PC moves on by 2 modulo 65536 exactly when the comparison holds; nothing else changes. -/
def Obligations.SkipsCompareUnsignedBytes : Prop :=
  RowDecodes 0xF000#16 0x3000#16 (fun w => .seByte (fieldX w) (fieldKK w)) ∧
  RowDecodes 0xF000#16 0x4000#16 (fun w => .sneByte (fieldX w) (fieldKK w)) ∧
  RowDecodes 0xF000#16 0x5000#16 (fun w => .seReg (fieldX w) (fieldY w)) ∧
  RowDecodes 0xF000#16 0x9000#16 (fun w => .sneReg (fieldX w) (fieldY w)) ∧
  ∀ (s : State) (x y : Reg) (kk : Byte),
    (∃ t, exec (.seByte x kk) s = .next t ∧ KeepsAllBut (· = .pc) s t ∧
      t.pc.toNat = (s.pc.toNat + if (s.getV x).toNat = kk.toNat then 2 else 0) % 65536) ∧
    (∃ t, exec (.sneByte x kk) s = .next t ∧ KeepsAllBut (· = .pc) s t ∧
      t.pc.toNat = (s.pc.toNat + if (s.getV x).toNat = kk.toNat then 0 else 2) % 65536) ∧
    (∃ t, exec (.seReg x y) s = .next t ∧ KeepsAllBut (· = .pc) s t ∧
      t.pc.toNat = (s.pc.toNat + if (s.getV x).toNat = (s.getV y).toNat then 2 else 0) % 65536) ∧
    (∃ t, exec (.sneReg x y) s = .next t ∧ KeepsAllBut (· = .pc) s t ∧
      t.pc.toNat = (s.pc.toNat + if (s.getV x).toNat = (s.getV y).toNat then 0 else 2) % 65536)

/-! ### Registers, arithmetic, logic, shifts, random -/

/-- R160, R162: Vx takes kk, or the old Vy; nothing else changes, VF included unless it is Vx. -/
def Obligations.LoadsCopyBytes : Prop :=
  RowDecodes 0xF000#16 0x6000#16 (fun w => .ldByte (fieldX w) (fieldKK w)) ∧
  RowDecodes 0xF00F#16 0x8000#16 (fun w => .ldReg (fieldX w) (fieldY w)) ∧
  ∀ (s : State) (x y : Reg) (kk : Byte),
    (∃ t, exec (.ldByte x kk) s = .next t ∧ t.getV x = kk ∧ KeepsAllBut (· = .v x) s t) ∧
    (∃ t, exec (.ldReg x y) s = .next t ∧ t.getV x = s.getV y ∧ KeepsAllBut (· = .v x) s t)

/-- R161: the sum modulo 256, and no flag. -/
def Obligations.AddByteWrapsWithoutFlag : Prop :=
  RowDecodes 0xF000#16 0x7000#16 (fun w => .addByte (fieldX w) (fieldKK w)) ∧
  ∀ (s : State) (x : Reg) (kk : Byte), ∃ t, exec (.addByte x kk) s = .next t ∧
    (t.getV x).toNat = ((s.getV x).toNat + kk.toNat) % 256 ∧ KeepsAllBut (· = .v x) s t

/-- R163, R164, R165: bit by bit, and VF is neither cleared nor set. -/
def Obligations.LogicIsBitwiseAndLeavesVF : Prop :=
  RowDecodes 0xF00F#16 0x8001#16 (fun w => .orReg (fieldX w) (fieldY w)) ∧
  RowDecodes 0xF00F#16 0x8002#16 (fun w => .andReg (fieldX w) (fieldY w)) ∧
  RowDecodes 0xF00F#16 0x8003#16 (fun w => .xorReg (fieldX w) (fieldY w)) ∧
  ∀ (s : State) (x y : Reg),
    (∃ t, exec (.orReg x y) s = .next t ∧ KeepsAllBut (· = .v x) s t ∧
      ∀ b, (t.getV x).getLsbD b = ((s.getV x).getLsbD b || (s.getV y).getLsbD b)) ∧
    (∃ t, exec (.andReg x y) s = .next t ∧ KeepsAllBut (· = .v x) s t ∧
      ∀ b, (t.getV x).getLsbD b = ((s.getV x).getLsbD b && (s.getV y).getLsbD b)) ∧
    (∃ t, exec (.xorReg x y) s = .next t ∧ KeepsAllBut (· = .v x) s t ∧
      ∀ b, (t.getV x).getLsbD b = ((s.getV x).getLsbD b ^^ (s.getV y).getLsbD b))

/-- R166 with R173: Vx is the sum modulo 256; VF is the carry, unless x = 0xF, where the sum stays. -/
def Obligations.AddRegSetsCarry : Prop :=
  RowDecodes 0xF00F#16 0x8004#16 (fun w => .addReg (fieldX w) (fieldY w)) ∧
  ∀ (s : State) (x y : Reg), ∃ t, exec (.addReg x y) s = .next t ∧
    (t.getV x).toNat = ((s.getV x).toNat + (s.getV y).toNat) % 256 ∧
    (x ≠ VF → (t.getV VF).toNat = if (s.getV x).toNat + (s.getV y).toNat > 255 then 1 else 0) ∧
    KeepsAllBut (· ∈ [.v x, .v VF]) s t

/-- R167, R169 with R173: the difference modulo 256; VF is the strict comparison of the operands before it, unless
x = 0xF, where the difference stays. -/
def Obligations.SubtractionsCompareStrictly : Prop :=
  RowDecodes 0xF00F#16 0x8005#16 (fun w => .subReg (fieldX w) (fieldY w)) ∧
  RowDecodes 0xF00F#16 0x8007#16 (fun w => .subnReg (fieldX w) (fieldY w)) ∧
  ∀ (s : State) (x y : Reg),
    (∃ t, exec (.subReg x y) s = .next t ∧
      (t.getV x).toNat = ((s.getV x).toNat + 256 - (s.getV y).toNat) % 256 ∧
      (x ≠ VF → (t.getV VF).toNat = if (s.getV x).toNat > (s.getV y).toNat then 1 else 0) ∧
      KeepsAllBut (· ∈ [.v x, .v VF]) s t) ∧
    (∃ t, exec (.subnReg x y) s = .next t ∧
      (t.getV x).toNat = ((s.getV y).toNat + 256 - (s.getV x).toNat) % 256 ∧
      (x ≠ VF → (t.getV VF).toNat = if (s.getV y).toNat > (s.getV x).toNat then 1 else 0) ∧
      KeepsAllBut (· ∈ [.v x, .v VF]) s t)

/-- R168, R170 with R173: Vx is halved or doubled in place, whatever y is; VF is the bit shifted out, unless x = 0xF, where the
result stays. -/
def Obligations.ShiftsMoveVxByOneBit : Prop :=
  RowDecodes 0xF00F#16 0x8006#16 (fun w => .shr (fieldX w) (fieldY w)) ∧
  RowDecodes 0xF00F#16 0x800E#16 (fun w => .shl (fieldX w) (fieldY w)) ∧
  ∀ (s : State) (x y : Reg),
    (∃ t, exec (.shr x y) s = .next t ∧ (t.getV x).toNat = (s.getV x).toNat / 2 ∧
      (x ≠ VF → (t.getV VF).toNat = (s.getV x).toNat % 2) ∧ KeepsAllBut (· ∈ [.v x, .v VF]) s t) ∧
    (∃ t, exec (.shl x y) s = .next t ∧ (t.getV x).toNat = (s.getV x).toNat * 2 % 256 ∧
      (x ≠ VF → (t.getV VF).toNat = (s.getV x).toNat / 128) ∧ KeepsAllBut (· ∈ [.v x, .v VF]) s t)

/-- R171: for every RND input, Vx is that byte AND kk; a Step that does not execute Cxkk does not observe its RND input
(R268). -/
def Obligations.RandomByteIsMasked : Prop :=
  RowDecodes 0xF000#16 0xC000#16 (fun w => .rnd (fieldX w) (fieldKK w)) ∧
  (∀ (s : State) (x : Reg) (kk : Byte), ∃ t, exec (.rnd x kk) s = .next t ∧
    t.getV x = s.cur.rnd &&& kk ∧ t.getV x &&& ~~~kk = 0#8 ∧ KeepsAllBut (· = .v x) s t) ∧
  (∀ (r : Byte) (s : State) (x : Reg) (kk : Byte), decodeWord s.opcode = .rnd x kk →
    ∃ t rep, stepWith r s = .next (t, rep) ∧ t.getV x = r &&& kk) ∧
  (∀ (a b : Byte) (s : State), (∀ x kk, decodeWord s.opcode ≠ .rnd x kk) → stepWith a s = stepWith b s)

/-! ### Index register and memory -/

/-- R190, R191, R192: I takes nnn, the sum modulo 65536, or the glyph address of the whole byte; no flag, no error. -/
def Obligations.IndexRegisterWrites : Prop :=
  RowDecodes 0xF000#16 0xA000#16 (fun w => .ldI (fieldNNN w)) ∧
  RowDecodes 0xF0FF#16 0xF01E#16 (fun w => .addI (fieldX w)) ∧
  RowDecodes 0xF0FF#16 0xF029#16 (fun w => .ldF (fieldX w)) ∧
  ∀ (s : State) (x : Reg) (nnn : Addr12),
    (∃ t, exec (.ldI nnn) s = .next t ∧ t.i.toNat = nnn.toNat ∧ KeepsAllBut (· = .i) s t) ∧
    (∃ t, exec (.addI x) s = .next t ∧ t.i.toNat = (s.i.toNat + (s.getV x).toNat) % 65536 ∧
      KeepsAllBut (· = .i) s t) ∧
    (∃ t, exec (.ldF x) s = .next t ∧ t.i.toNat = 0x50 + 5 * (s.getV x).toNat ∧ KeepsAllBut (· = .i) s t)

/-- R193: the three digits go to the cells of I, I + 1, I + 2 and give the byte back, every other byte of memory and everything else stays, and
MemoryOutOfRange is reported exactly when I + 2 > 4095. -/
def Obligations.BcdStoresThreeDigits : Prop :=
  RowDecodes 0xF0FF#16 0xF033#16 (fun w => .ldB (fieldX w)) ∧
  ∀ (s : State) (x : Reg), s.mem.wf → ∃ t, exec (.ldB x) s = .next t ∧
    (t.mem.read (s.dataCell 0)).toNat = (s.getV x).toNat / 100 ∧
    (t.mem.read (s.dataCell 1)).toNat = (s.getV x).toNat / 10 % 10 ∧
    (t.mem.read (s.dataCell 2)).toNat = (s.getV x).toNat % 10 ∧
    (t.mem.read (s.dataCell 0)).toNat * 100 + (t.mem.read (s.dataCell 1)).toNat * 10
      + (t.mem.read (s.dataCell 2)).toNat = (s.getV x).toNat ∧
    RaisesIf (s.i.toNat + 2 > 4095) .memoryOutOfRange s t ∧
    KeepsAllBut (fun c => (∃ a : Fin 4096, (∃ k < 3, a.val = s.dataCell k) ∧ c = .mem a) ∨ c = .stepErr) s t

/-- R194: V0..Vx go to the cells of I..I + x, every other byte of memory and everything else stays, and MemoryOutOfRange is
reported exactly when I + x > 4095. -/
def Obligations.RegisterStoreWritesConsecutiveCells : Prop :=
  RowDecodes 0xF0FF#16 0xF055#16 (fun w => .storeRegs (fieldX w)) ∧
  ∀ (s : State) (x : Reg), s.mem.wf → ∃ t, exec (.storeRegs x) s = .next t ∧
    (∀ r : Reg, r ≤ x → t.mem.read (s.dataCell r.val) = s.getV r) ∧
    RaisesIf (s.i.toNat + x.val > 4095) .memoryOutOfRange s t ∧
    KeepsAllBut (fun c => (∃ a : Fin 4096, (∃ k ≤ x.val, a.val = s.dataCell k) ∧ c = .mem a) ∨ c = .stepErr) s t

/-- R195: V0..Vx take the cells of I..I + x, every other register, every byte of memory and everything else stays, and
MemoryOutOfRange is reported exactly when I + x > 4095. After Fx55 with the same x, on any state with that memory and I,
it restores V0..Vx exactly, out-of-range addresses included (95_test_vectors.md S6). -/
def Obligations.RegisterLoadReadsConsecutiveCells : Prop :=
  RowDecodes 0xF0FF#16 0xF065#16 (fun w => .loadRegs (fieldX w)) ∧
  (∀ (s : State) (x : Reg), ∃ t, exec (.loadRegs x) s = .next t ∧
    (∀ r : Reg, r ≤ x → t.getV r = s.mem.read (s.dataCell r.val)) ∧
    RaisesIf (s.i.toNat + x.val > 4095) .memoryOutOfRange s t ∧
    KeepsAllBut (fun c => (∃ r, r ≤ x ∧ c = .v r) ∨ c = .stepErr) s t) ∧
  (∀ (s t u : State) (x : Reg), s.mem.wf → exec (.storeRegs x) s = .next t → u.mem = t.mem → u.i = s.i →
    ∃ v, exec (.loadRegs x) u = .next v ∧ ∀ r : Reg, r ≤ x → v.getV r = s.getV r)

/-! ### Display -/

/-- R210. -/
def Obligations.ClearScreenClearsEveryCell : Prop :=
  RowDecodes 0xF00F#16 0x0000#16 (fun _ => .cls) ∧
  ∀ s : State, ∃ t, exec .cls s = .next t ∧ (∀ (cx : Fin 64) (cy : Fin 32), t.cell cx.val cy.val = false) ∧
    KeepsAllBut (fun c => ∃ cx cy, c = .fb cx cy) s t

/-- R211, the loops against the picture: every cell is XORed with the sprite's bit for it (clipped at the right and bottom
edges), VF is 1 exactly when a set cell met a set bit, MemoryOutOfRange is reported exactly when a row that is read lies
above 4095, and nothing else changes. -/
def Obligations.SpriteDrawIsPointwiseXor : Prop :=
  RowDecodes 0xF000#16 0xD000#16 (fun w => .drw (fieldX w) (fieldY w) (fieldN w)) ∧
  ∀ (s : State) (x y : Reg) (n : Fin 16), ∃ t, exec (.drw x y n) s = .next t ∧
    (∀ (cx : Fin 64) (cy : Fin 32), t.cell cx.val cy.val =
      (s.cell cx.val cy.val ^^ s.spriteBit ((s.getV x).toNat % 64) ((s.getV y).toNat % 32) n.val cx.val cy.val)) ∧
    (t.getV VF = 1#8 ∨ t.getV VF = 0#8) ∧
    (t.getV VF = 1#8 ↔ ∃ (cx : Fin 64) (cy : Fin 32), s.cell cx.val cy.val = true ∧
      s.spriteBit ((s.getV x).toNat % 64) ((s.getV y).toNat % 32) n.val cx.val cy.val = true) ∧
    RaisesIf (∃ r < n.val, (s.getV y).toNat % 32 + r ≤ 31 ∧ s.i.toNat + r > 4095) .memoryOutOfRange s t ∧
    KeepsAllBut (fun c => c = .v VF ∨ (∃ cx cy, c = .fb cx cy) ∨ c = .stepErr) s t

/-- R211 (g), from the loops: drawing the same sprite twice at the same place restores the framebuffer, and the second draw
sets VF = 1 exactly when a set bit of the sprite falls on a cell of the screen that was clear before the first (assumption
12: the rule's short form of this corner leaves out the cells that were set). x and y are not VF, which the first draw
overwrites. -/
def Obligations.DrawingTwiceRestoresTheScreen : Prop :=
  ∀ (s t : State) (x y : Reg) (n : Fin 16), x ≠ VF → y ≠ VF → exec (.drw x y n) s = .next t →
    ∃ u, exec (.drw x y n) t = .next u ∧
      (∀ (cx : Fin 64) (cy : Fin 32), u.cell cx.val cy.val = s.cell cx.val cy.val) ∧
      (u.getV VF = 1#8 ↔ ∃ (cx : Fin 64) (cy : Fin 32), s.cell cx.val cy.val = false ∧
        s.spriteBit ((s.getV x).toNat % 64) ((s.getV y).toNat % 32) n.val cx.val cy.val = true)

/-- R213, R28, R265: the host's view has 2048 values, cell (cx, cy) at index cy × 64 + cx, FB_SET_VALUE for a set cell and 0
for a clear one; ReadFramebuffer answers it, ReadState answers the state, and both leave the state as it was. -/
def Obligations.FramebufferViewIsRowMajor : Prop :=
  ∀ (fbSetValue : Nat) (s : State),
    (∃ values, hostMove fbSetValue .readFramebuffer s = .next (s, .cells values) ∧ values = s.framebuffer fbSetValue ∧
      values.length = 2048 ∧ ∀ (cx : Fin 64) (cy : Fin 32),
        values[cy.val * 64 + cx.val]? = some (if s.cell cx.val cy.val then fbSetValue else 0)) ∧
    hostMove fbSetValue .readState s = .next (s, .state s)

/-! ### Keypad and timers -/

/-- R230, R231 with R236: PC moves on by 2 exactly when the key of the low four bits of Vx is pressed, or is not. -/
def Obligations.KeySkipsTestTheLatch : Prop :=
  RowDecodes 0xF00F#16 0xE00E#16 (fun w => .skp (fieldX w)) ∧
  RowDecodes 0xF00F#16 0xE001#16 (fun w => .sknp (fieldX w)) ∧
  ∀ (s : State) (x : Reg) (k : Key), k.val = (s.getV x).toNat % 16 →
    (∃ t, exec (.skp x) s = .next t ∧ KeepsAllBut (· = .pc) s t ∧
      t.pc.toNat = (s.pc.toNat + if s.keyDown k then 2 else 0) % 65536) ∧
    (∃ t, exec (.sknp x) s = .next t ∧ KeepsAllBut (· = .pc) s t ∧
      t.pc.toNat = (s.pc.toNat + if s.keyDown k then 0 else 2) % 65536)

/-- R232, R234, R235: a byte moves between Vx and a timer; DT is read before the Step's tick, and a timer loaded with v ends
the Step at v − 1, or 0. -/
def Obligations.TimerMovesMeetTheTick : Prop :=
  RowDecodes 0xF0FF#16 0xF007#16 (fun w => .ldVxDt (fieldX w)) ∧
  RowDecodes 0xF0FF#16 0xF015#16 (fun w => .ldDtVx (fieldX w)) ∧
  RowDecodes 0xF0FF#16 0xF018#16 (fun w => .ldStVx (fieldX w)) ∧
  (∀ (s : State) (x : Reg),
    (∃ t, exec (.ldVxDt x) s = .next t ∧ t.getV x = s.dt ∧ KeepsAllBut (· = .v x) s t) ∧
    (∃ t, exec (.ldDtVx x) s = .next t ∧ t.dt = s.getV x ∧ KeepsAllBut (· = .dt) s t) ∧
    (∃ t, exec (.ldStVx x) s = .next t ∧ t.st = s.getV x ∧ KeepsAllBut (· = .st) s t)) ∧
  (∀ (rnd : Byte) (s : State) (x : Reg), ∃ t r, stepWith rnd s = .next (t, r) ∧
    (decodeWord s.opcode = .ldVxDt x → t.getV x = s.dt ∧ t.dt.toNat = s.dt.toNat - 1) ∧
    (decodeWord s.opcode = .ldDtVx x → t.dt.toNat = (s.getV x).toNat - 1 ∧ t.st.toNat = s.st.toNat - 1) ∧
    (decodeWord s.opcode = .ldStVx x → t.st.toNat = (s.getV x).toNat - 1 ∧ t.dt.toNat = s.dt.toNat - 1))

/-- R233: with no key pressed PC goes back by 2 modulo 65536 and nothing else changes, so that the Step ends where it began
with both timers ticked; else Vx takes the lowest pressed key and nothing else changes. -/
def Obligations.KeyWaitRollsBackOrTakesTheLowestKey : Prop :=
  RowDecodes 0xF0FF#16 0xF00A#16 (fun w => .ldVxK (fieldX w)) ∧
  (∀ (s : State) (x : Reg), (∀ k, s.keyDown k = false) → ∃ t, exec (.ldVxK x) s = .next t ∧
    t.pc.toNat = (s.pc.toNat + 65534) % 65536 ∧ KeepsAllBut (· = .pc) s t) ∧
  (∀ (s : State) (x : Reg) (k : Key), s.keyDown k = true → (∀ j < k, s.keyDown j = false) →
    ∃ t, exec (.ldVxK x) s = .next t ∧ (t.getV x).toNat = k.val ∧ KeepsAllBut (· = .v x) s t) ∧
  (∀ (rnd : Byte) (s : State) (x : Reg), (∀ k, s.keyDown k = false) → decodeWord s.opcode = .ldVxK x →
    ∃ t r, stepWith rnd s = .next (t, r) ∧ t.pc = s.pc ∧ t.dt.toNat = s.dt.toNat - 1 ∧ t.st.toNat = s.st.toNat - 1 ∧
      KeepsAllBut (· ∈ [.dt, .st, .err, .stepErr, .rnd]) s t)

/-! ### UNDEF -/

/-- R127: the handler only reports UnknownOpcode, and a Step that fetches an UNDEF word advances PC by 2, ticks both timers,
sets STEP_ERR bit 0 and ERR bit 0, and changes nothing else. Bit 3 of ERR, should the fetch itself be out of range, is
the fetch's (R66). -/
def Obligations.UndefIsAReportedNoOp : Prop :=
  (∀ (s : State) (w : Word), ∃ t, exec (.undef w) s = .next t ∧
    RaisesIf True .unknownOpcode s t ∧ KeepsAllBut (· = .stepErr) s t) ∧
  (∀ (rnd : Byte) (s : State), isUndefWord s.opcode = true → s.cur = StepLocal.idle → ∃ t r, stepWith rnd s = .next (t, r) ∧
    t.pc.toNat = (s.pc.toNat + 2) % 65536 ∧ t.dt.toNat = s.dt.toNat - 1 ∧ t.st.toNat = s.st.toNat - 1 ∧
    r.stepErr = (if s.pc.toNat + 1 > 4095 then 0b1001#4 else 0b0001#4) ∧ r.stepOpcode = s.opcode ∧
    t.err = s.err ||| r.stepErr.zeroExtend 5 ∧ KeepsAllBut (· ∈ [.pc, .dt, .st, .err]) s t)

/-! ### Reset and the host -/

/-- R35, R290: Reset with any font table, from any state, gives the values of R35's table. That the count of draws is kept
is the model's choice (assumption 3). -/
def Obligations.ResetGivesTheListedValues : Prop :=
  ∀ (fbSetValue : Nat) (s : State) (font : Font), ∃ t, hostMove fbSetValue (.reset font) s = .next (t, .nothing) ∧
    (∀ x, t.getV x = 0x00#8) ∧ t.i = 0x0000#16 ∧ t.pc = 0x0200#16 ∧ t.sp.val = 0 ∧ (∀ k, t.slot k = 0x0000#16) ∧
    t.dt = 0x00#8 ∧ t.st = 0x00#8 ∧ (∀ k, t.keyDown k = false) ∧
    (∀ (cx : Fin 64) (cy : Fin 32), t.cell cx.val cy.val = false) ∧
    (∀ j : Fin 80, t.mem.read (0x50 + j.val) = font.get j) ∧
    (∀ a : Fin 4096, a.val < 0x50 ∨ 0x9F < a.val → t.mem.read a.val = 0x00#8) ∧ t.err = 0b00000#5

/-- R29, assumption 2: `State.reset`, whose memory lists nothing, is Reset with the default font of R29 (80 bytes, supplied
from general knowledge; the model's unlisted contents). -/
def Obligations.ResetStateIsResetWithTheDefaultFont : Prop :=
  ∃ font : Font, font.toList = defaultFont ∧ State.resetWith font = State.reset

/-- R292, R293: at most 3584 bytes are copied to 0x200 upward and nothing else changes; a longer buffer changes nothing but ERR bit
4, and RomLoadFailed is answered. -/
def Obligations.LoadRomCopiesOrRejects : Prop :=
  ∀ (fbSetValue : Nat) (s : State) (bytes : List Byte), s.mem.wf →
    (bytes.length ≤ 3584 → ∃ t, hostMove fbSetValue (.loadRom bytes) s = .next (t, .load .ok) ∧
      (∀ j (h : j < bytes.length), t.mem.read (0x200 + j) = bytes[j]) ∧
      KeepsAllBut (fun c => ∃ a : Fin 4096, 0x200 ≤ a.val ∧ a.val < 0x200 + bytes.length ∧ c = .mem a) s t) ∧
    (3584 < bytes.length → ∃ t, hostMove fbSetValue (.loadRom bytes) s = .next (t, .load .romLoadFailed) ∧
      t.err = s.err ||| 0b10000#5 ∧ KeepsAllBut (· = .err) s t)

/-- R266: SetKey writes one flag, its bulk form all 16, Reset clears all 16 (R35), and no other move of the host and no Step,
with whatever RND input, writes any. -/
def Obligations.OnlySetKeyWritesTheKeypad : Prop :=
  (∀ (fbSetValue : Nat) (s : State) (k : Key) (p : Bool), ∃ t,
    hostMove fbSetValue (.setKey k p) s = .next (t, .nothing) ∧ t.keyDown k = p ∧ KeepsAllBut (· = .key k) s t) ∧
  (∀ (fbSetValue : Nat) (s : State) (flags : Vector Bool 16), ∃ t,
    hostMove fbSetValue (.setKeys flags) s = .next (t, .nothing) ∧ (∀ k, t.keyDown k = flags.get k) ∧
      KeepsAllBut (fun c => ∃ k, c = .key k) s t) ∧
  (∀ (fbSetValue : Nat) (s : State) (font : Font), ∃ t,
    hostMove fbSetValue (.reset font) s = .next (t, .nothing) ∧ ∀ k, t.keyDown k = false) ∧
  (∀ (fbSetValue : Nat) (m : HostMove) (s t : State) (r : HostResult),
    (∀ font, m ≠ .reset font) → (∀ k p, m ≠ .setKey k p) → (∀ flags, m ≠ .setKeys flags) →
    hostMove fbSetValue m s = .next (t, r) → ∀ k, t.keyDown k = s.keyDown k) ∧
  (∀ (rnd : Byte) (s t : State) (r : StepReport), stepWith rnd s = .next (t, r) → ∀ k, t.keyDown k = s.keyDown k) ∧
  (∀ s t : State, step s = .next t → ∀ k, t.keyDown k = s.keyDown k)

/-- The model's `withFetchWord` (assumptions 9 and 13): the word is what the next step fetches, and no other byte of memory and
nothing else changes. -/
def Obligations.FetchWordIsPlacedWhereStepFetches : Prop :=
  ∀ (s : State) (w : Word), s.mem.wf →
    (s.withFetchWord 16 w.toNat).opcode = w ∧
    KeepsAllBut (fun c => ∃ a : Fin 4096, (a.val = s.pc.toNat % 4096 ∨ a.val = (s.pc.toNat + 1) % 4096) ∧ c = .mem a)
      s (s.withFetchWord 16 w.toNat)
end

