-- ==== Sys2Proof/Laws/State.lean ====
section
/-! SUPPORT. What each update of the state does to each field: one lemma per field per update, each true by rfl. -/

namespace Sys2Proof.Machine

variable (s : State)

@[simp] theorem State.setV_v (x : Reg) (b : Byte) : (s.setV x b).v = s.v.set x.val b x.isLt := rfl
@[simp] theorem State.setV_i (x : Reg) (b : Byte) : (s.setV x b).i = s.i := rfl
@[simp] theorem State.setV_pc (x : Reg) (b : Byte) : (s.setV x b).pc = s.pc := rfl
@[simp] theorem State.setV_stack (x : Reg) (b : Byte) : (s.setV x b).stack = s.stack := rfl
@[simp] theorem State.setV_sp (x : Reg) (b : Byte) : (s.setV x b).sp = s.sp := rfl
@[simp] theorem State.setV_dt (x : Reg) (b : Byte) : (s.setV x b).dt = s.dt := rfl
@[simp] theorem State.setV_st (x : Reg) (b : Byte) : (s.setV x b).st = s.st := rfl
@[simp] theorem State.setV_key (x : Reg) (b : Byte) : (s.setV x b).key = s.key := rfl
@[simp] theorem State.setV_fb (x : Reg) (b : Byte) : (s.setV x b).fb = s.fb := rfl
@[simp] theorem State.setV_mem (x : Reg) (b : Byte) : (s.setV x b).mem = s.mem := rfl
@[simp] theorem State.setV_err (x : Reg) (b : Byte) : (s.setV x b).err = s.err := rfl
@[simp] theorem State.setV_cur (x : Reg) (b : Byte) : (s.setV x b).cur = s.cur := rfl
@[simp] theorem State.setV_draws (x : Reg) (b : Byte) : (s.setV x b).draws = s.draws := rfl

@[simp] theorem State.setPc_v (w : Word) : (s.setPc w).v = s.v := rfl
@[simp] theorem State.setPc_i (w : Word) : (s.setPc w).i = s.i := rfl
@[simp] theorem State.setPc_pc (w : Word) : (s.setPc w).pc = w := rfl
@[simp] theorem State.setPc_stack (w : Word) : (s.setPc w).stack = s.stack := rfl
@[simp] theorem State.setPc_sp (w : Word) : (s.setPc w).sp = s.sp := rfl
@[simp] theorem State.setPc_dt (w : Word) : (s.setPc w).dt = s.dt := rfl
@[simp] theorem State.setPc_st (w : Word) : (s.setPc w).st = s.st := rfl
@[simp] theorem State.setPc_key (w : Word) : (s.setPc w).key = s.key := rfl
@[simp] theorem State.setPc_fb (w : Word) : (s.setPc w).fb = s.fb := rfl
@[simp] theorem State.setPc_mem (w : Word) : (s.setPc w).mem = s.mem := rfl
@[simp] theorem State.setPc_err (w : Word) : (s.setPc w).err = s.err := rfl
@[simp] theorem State.setPc_cur (w : Word) : (s.setPc w).cur = s.cur := rfl
@[simp] theorem State.setPc_draws (w : Word) : (s.setPc w).draws = s.draws := rfl

@[simp] theorem State.advancePc_v : (s.advancePc).v = s.v := rfl
@[simp] theorem State.advancePc_i : (s.advancePc).i = s.i := rfl
@[simp] theorem State.advancePc_pc : (s.advancePc).pc = s.pc + 2#16 := rfl
@[simp] theorem State.advancePc_stack : (s.advancePc).stack = s.stack := rfl
@[simp] theorem State.advancePc_sp : (s.advancePc).sp = s.sp := rfl
@[simp] theorem State.advancePc_dt : (s.advancePc).dt = s.dt := rfl
@[simp] theorem State.advancePc_st : (s.advancePc).st = s.st := rfl
@[simp] theorem State.advancePc_key : (s.advancePc).key = s.key := rfl
@[simp] theorem State.advancePc_fb : (s.advancePc).fb = s.fb := rfl
@[simp] theorem State.advancePc_mem : (s.advancePc).mem = s.mem := rfl
@[simp] theorem State.advancePc_err : (s.advancePc).err = s.err := rfl
@[simp] theorem State.advancePc_cur : (s.advancePc).cur = s.cur := rfl
@[simp] theorem State.advancePc_draws : (s.advancePc).draws = s.draws := rfl

@[simp] theorem State.rollBackPc_v : (s.rollBackPc).v = s.v := rfl
@[simp] theorem State.rollBackPc_i : (s.rollBackPc).i = s.i := rfl
@[simp] theorem State.rollBackPc_pc : (s.rollBackPc).pc = s.pc - 2#16 := rfl
@[simp] theorem State.rollBackPc_stack : (s.rollBackPc).stack = s.stack := rfl
@[simp] theorem State.rollBackPc_sp : (s.rollBackPc).sp = s.sp := rfl
@[simp] theorem State.rollBackPc_dt : (s.rollBackPc).dt = s.dt := rfl
@[simp] theorem State.rollBackPc_st : (s.rollBackPc).st = s.st := rfl
@[simp] theorem State.rollBackPc_key : (s.rollBackPc).key = s.key := rfl
@[simp] theorem State.rollBackPc_fb : (s.rollBackPc).fb = s.fb := rfl
@[simp] theorem State.rollBackPc_mem : (s.rollBackPc).mem = s.mem := rfl
@[simp] theorem State.rollBackPc_err : (s.rollBackPc).err = s.err := rfl
@[simp] theorem State.rollBackPc_cur : (s.rollBackPc).cur = s.cur := rfl
@[simp] theorem State.rollBackPc_draws : (s.rollBackPc).draws = s.draws := rfl

@[simp] theorem State.setI_v (w : Word) : (s.setI w).v = s.v := rfl
@[simp] theorem State.setI_i (w : Word) : (s.setI w).i = w := rfl
@[simp] theorem State.setI_pc (w : Word) : (s.setI w).pc = s.pc := rfl
@[simp] theorem State.setI_stack (w : Word) : (s.setI w).stack = s.stack := rfl
@[simp] theorem State.setI_sp (w : Word) : (s.setI w).sp = s.sp := rfl
@[simp] theorem State.setI_dt (w : Word) : (s.setI w).dt = s.dt := rfl
@[simp] theorem State.setI_st (w : Word) : (s.setI w).st = s.st := rfl
@[simp] theorem State.setI_key (w : Word) : (s.setI w).key = s.key := rfl
@[simp] theorem State.setI_fb (w : Word) : (s.setI w).fb = s.fb := rfl
@[simp] theorem State.setI_mem (w : Word) : (s.setI w).mem = s.mem := rfl
@[simp] theorem State.setI_err (w : Word) : (s.setI w).err = s.err := rfl
@[simp] theorem State.setI_cur (w : Word) : (s.setI w).cur = s.cur := rfl
@[simp] theorem State.setI_draws (w : Word) : (s.setI w).draws = s.draws := rfl

@[simp] theorem State.setDt_v (b : Byte) : (s.setDt b).v = s.v := rfl
@[simp] theorem State.setDt_i (b : Byte) : (s.setDt b).i = s.i := rfl
@[simp] theorem State.setDt_pc (b : Byte) : (s.setDt b).pc = s.pc := rfl
@[simp] theorem State.setDt_stack (b : Byte) : (s.setDt b).stack = s.stack := rfl
@[simp] theorem State.setDt_sp (b : Byte) : (s.setDt b).sp = s.sp := rfl
@[simp] theorem State.setDt_dt (b : Byte) : (s.setDt b).dt = b := rfl
@[simp] theorem State.setDt_st (b : Byte) : (s.setDt b).st = s.st := rfl
@[simp] theorem State.setDt_key (b : Byte) : (s.setDt b).key = s.key := rfl
@[simp] theorem State.setDt_fb (b : Byte) : (s.setDt b).fb = s.fb := rfl
@[simp] theorem State.setDt_mem (b : Byte) : (s.setDt b).mem = s.mem := rfl
@[simp] theorem State.setDt_err (b : Byte) : (s.setDt b).err = s.err := rfl
@[simp] theorem State.setDt_cur (b : Byte) : (s.setDt b).cur = s.cur := rfl
@[simp] theorem State.setDt_draws (b : Byte) : (s.setDt b).draws = s.draws := rfl

@[simp] theorem State.setSt_v (b : Byte) : (s.setSt b).v = s.v := rfl
@[simp] theorem State.setSt_i (b : Byte) : (s.setSt b).i = s.i := rfl
@[simp] theorem State.setSt_pc (b : Byte) : (s.setSt b).pc = s.pc := rfl
@[simp] theorem State.setSt_stack (b : Byte) : (s.setSt b).stack = s.stack := rfl
@[simp] theorem State.setSt_sp (b : Byte) : (s.setSt b).sp = s.sp := rfl
@[simp] theorem State.setSt_dt (b : Byte) : (s.setSt b).dt = s.dt := rfl
@[simp] theorem State.setSt_st (b : Byte) : (s.setSt b).st = b := rfl
@[simp] theorem State.setSt_key (b : Byte) : (s.setSt b).key = s.key := rfl
@[simp] theorem State.setSt_fb (b : Byte) : (s.setSt b).fb = s.fb := rfl
@[simp] theorem State.setSt_mem (b : Byte) : (s.setSt b).mem = s.mem := rfl
@[simp] theorem State.setSt_err (b : Byte) : (s.setSt b).err = s.err := rfl
@[simp] theorem State.setSt_cur (b : Byte) : (s.setSt b).cur = s.cur := rfl
@[simp] theorem State.setSt_draws (b : Byte) : (s.setSt b).draws = s.draws := rfl

@[simp] theorem State.setSlot_v (k : Fin 16) (w : Word) : (s.setSlot k w).v = s.v := rfl
@[simp] theorem State.setSlot_i (k : Fin 16) (w : Word) : (s.setSlot k w).i = s.i := rfl
@[simp] theorem State.setSlot_pc (k : Fin 16) (w : Word) : (s.setSlot k w).pc = s.pc := rfl
@[simp] theorem State.setSlot_stack (k : Fin 16) (w : Word) : (s.setSlot k w).stack = s.stack.set k.val w k.isLt := rfl
@[simp] theorem State.setSlot_sp (k : Fin 16) (w : Word) : (s.setSlot k w).sp = s.sp := rfl
@[simp] theorem State.setSlot_dt (k : Fin 16) (w : Word) : (s.setSlot k w).dt = s.dt := rfl
@[simp] theorem State.setSlot_st (k : Fin 16) (w : Word) : (s.setSlot k w).st = s.st := rfl
@[simp] theorem State.setSlot_key (k : Fin 16) (w : Word) : (s.setSlot k w).key = s.key := rfl
@[simp] theorem State.setSlot_fb (k : Fin 16) (w : Word) : (s.setSlot k w).fb = s.fb := rfl
@[simp] theorem State.setSlot_mem (k : Fin 16) (w : Word) : (s.setSlot k w).mem = s.mem := rfl
@[simp] theorem State.setSlot_err (k : Fin 16) (w : Word) : (s.setSlot k w).err = s.err := rfl
@[simp] theorem State.setSlot_cur (k : Fin 16) (w : Word) : (s.setSlot k w).cur = s.cur := rfl
@[simp] theorem State.setSlot_draws (k : Fin 16) (w : Word) : (s.setSlot k w).draws = s.draws := rfl

@[simp] theorem State.raise_v (e : StepError) : (s.raise e).v = s.v := rfl
@[simp] theorem State.raise_i (e : StepError) : (s.raise e).i = s.i := rfl
@[simp] theorem State.raise_pc (e : StepError) : (s.raise e).pc = s.pc := rfl
@[simp] theorem State.raise_stack (e : StepError) : (s.raise e).stack = s.stack := rfl
@[simp] theorem State.raise_sp (e : StepError) : (s.raise e).sp = s.sp := rfl
@[simp] theorem State.raise_dt (e : StepError) : (s.raise e).dt = s.dt := rfl
@[simp] theorem State.raise_st (e : StepError) : (s.raise e).st = s.st := rfl
@[simp] theorem State.raise_key (e : StepError) : (s.raise e).key = s.key := rfl
@[simp] theorem State.raise_fb (e : StepError) : (s.raise e).fb = s.fb := rfl
@[simp] theorem State.raise_mem (e : StepError) : (s.raise e).mem = s.mem := rfl
@[simp] theorem State.raise_err (e : StepError) : (s.raise e).err = s.err := rfl
@[simp] theorem State.raise_cur (e : StepError) : (s.raise e).cur = ⟨s.cur.rnd, s.cur.err ||| e.bit⟩ := rfl
@[simp] theorem State.raise_draws (e : StepError) : (s.raise e).draws = s.draws := rfl

@[simp] theorem State.draw_v : (s.draw).v = s.v := rfl
@[simp] theorem State.draw_i : (s.draw).i = s.i := rfl
@[simp] theorem State.draw_pc : (s.draw).pc = s.pc := rfl
@[simp] theorem State.draw_stack : (s.draw).stack = s.stack := rfl
@[simp] theorem State.draw_sp : (s.draw).sp = s.sp := rfl
@[simp] theorem State.draw_dt : (s.draw).dt = s.dt := rfl
@[simp] theorem State.draw_st : (s.draw).st = s.st := rfl
@[simp] theorem State.draw_key : (s.draw).key = s.key := rfl
@[simp] theorem State.draw_fb : (s.draw).fb = s.fb := rfl
@[simp] theorem State.draw_mem : (s.draw).mem = s.mem := rfl
@[simp] theorem State.draw_err : (s.draw).err = s.err := rfl
@[simp] theorem State.draw_cur : (s.draw).cur = s.cur := rfl
@[simp] theorem State.draw_draws : (s.draw).draws = s.draws + 1 := rfl

@[simp] theorem State.endStep_v : (s.endStep).v = s.v := rfl
@[simp] theorem State.endStep_i : (s.endStep).i = s.i := rfl
@[simp] theorem State.endStep_pc : (s.endStep).pc = s.pc := rfl
@[simp] theorem State.endStep_stack : (s.endStep).stack = s.stack := rfl
@[simp] theorem State.endStep_sp : (s.endStep).sp = s.sp := rfl
@[simp] theorem State.endStep_dt : (s.endStep).dt = tickByte s.dt := rfl
@[simp] theorem State.endStep_st : (s.endStep).st = tickByte s.st := rfl
@[simp] theorem State.endStep_key : (s.endStep).key = s.key := rfl
@[simp] theorem State.endStep_fb : (s.endStep).fb = s.fb := rfl
@[simp] theorem State.endStep_mem : (s.endStep).mem = s.mem := rfl
@[simp] theorem State.endStep_err : (s.endStep).err = s.err ||| s.cur.err.zeroExtend 5 := rfl
@[simp] theorem State.endStep_cur : (s.endStep).cur = StepLocal.idle := rfl
@[simp] theorem State.endStep_draws : (s.endStep).draws = s.draws := rfl

@[simp] theorem State.setKey_v (k : Key) (p : Bool) : (s.setKey k p).v = s.v := rfl
@[simp] theorem State.setKey_i (k : Key) (p : Bool) : (s.setKey k p).i = s.i := rfl
@[simp] theorem State.setKey_pc (k : Key) (p : Bool) : (s.setKey k p).pc = s.pc := rfl
@[simp] theorem State.setKey_stack (k : Key) (p : Bool) : (s.setKey k p).stack = s.stack := rfl
@[simp] theorem State.setKey_sp (k : Key) (p : Bool) : (s.setKey k p).sp = s.sp := rfl
@[simp] theorem State.setKey_dt (k : Key) (p : Bool) : (s.setKey k p).dt = s.dt := rfl
@[simp] theorem State.setKey_st (k : Key) (p : Bool) : (s.setKey k p).st = s.st := rfl
@[simp] theorem State.setKey_key (k : Key) (p : Bool) : (s.setKey k p).key = s.key.set k.val p k.isLt := rfl
@[simp] theorem State.setKey_fb (k : Key) (p : Bool) : (s.setKey k p).fb = s.fb := rfl
@[simp] theorem State.setKey_mem (k : Key) (p : Bool) : (s.setKey k p).mem = s.mem := rfl
@[simp] theorem State.setKey_err (k : Key) (p : Bool) : (s.setKey k p).err = s.err := rfl
@[simp] theorem State.setKey_cur (k : Key) (p : Bool) : (s.setKey k p).cur = s.cur := rfl
@[simp] theorem State.setKey_draws (k : Key) (p : Bool) : (s.setKey k p).draws = s.draws := rfl

@[simp] theorem State.setKeys_v (f : Vector Bool 16) : (s.setKeys f).v = s.v := rfl
@[simp] theorem State.setKeys_i (f : Vector Bool 16) : (s.setKeys f).i = s.i := rfl
@[simp] theorem State.setKeys_pc (f : Vector Bool 16) : (s.setKeys f).pc = s.pc := rfl
@[simp] theorem State.setKeys_stack (f : Vector Bool 16) : (s.setKeys f).stack = s.stack := rfl
@[simp] theorem State.setKeys_sp (f : Vector Bool 16) : (s.setKeys f).sp = s.sp := rfl
@[simp] theorem State.setKeys_dt (f : Vector Bool 16) : (s.setKeys f).dt = s.dt := rfl
@[simp] theorem State.setKeys_st (f : Vector Bool 16) : (s.setKeys f).st = s.st := rfl
@[simp] theorem State.setKeys_key (f : Vector Bool 16) : (s.setKeys f).key = f := rfl
@[simp] theorem State.setKeys_fb (f : Vector Bool 16) : (s.setKeys f).fb = s.fb := rfl
@[simp] theorem State.setKeys_mem (f : Vector Bool 16) : (s.setKeys f).mem = s.mem := rfl
@[simp] theorem State.setKeys_err (f : Vector Bool 16) : (s.setKeys f).err = s.err := rfl
@[simp] theorem State.setKeys_cur (f : Vector Bool 16) : (s.setKeys f).cur = s.cur := rfl
@[simp] theorem State.setKeys_draws (f : Vector Bool 16) : (s.setKeys f).draws = s.draws := rfl

@[simp] theorem State.placeWord_v (a : Nat) (hi lo : Byte) : (s.placeWord a hi lo).v = s.v := rfl
@[simp] theorem State.placeWord_i (a : Nat) (hi lo : Byte) : (s.placeWord a hi lo).i = s.i := rfl
@[simp] theorem State.placeWord_pc (a : Nat) (hi lo : Byte) : (s.placeWord a hi lo).pc = s.pc := rfl
@[simp] theorem State.placeWord_stack (a : Nat) (hi lo : Byte) : (s.placeWord a hi lo).stack = s.stack := rfl
@[simp] theorem State.placeWord_sp (a : Nat) (hi lo : Byte) : (s.placeWord a hi lo).sp = s.sp := rfl
@[simp] theorem State.placeWord_dt (a : Nat) (hi lo : Byte) : (s.placeWord a hi lo).dt = s.dt := rfl
@[simp] theorem State.placeWord_st (a : Nat) (hi lo : Byte) : (s.placeWord a hi lo).st = s.st := rfl
@[simp] theorem State.placeWord_key (a : Nat) (hi lo : Byte) : (s.placeWord a hi lo).key = s.key := rfl
@[simp] theorem State.placeWord_fb (a : Nat) (hi lo : Byte) : (s.placeWord a hi lo).fb = s.fb := rfl
@[simp] theorem State.placeWord_mem (a : Nat) (hi lo : Byte) : (s.placeWord a hi lo).mem = (s.mem.write (a % Config.memSize) hi).write ((a + 1) % Config.memSize) lo := rfl
@[simp] theorem State.placeWord_err (a : Nat) (hi lo : Byte) : (s.placeWord a hi lo).err = s.err := rfl
@[simp] theorem State.placeWord_cur (a : Nat) (hi lo : Byte) : (s.placeWord a hi lo).cur = s.cur := rfl
@[simp] theorem State.placeWord_draws (a : Nat) (hi lo : Byte) : (s.placeWord a hi lo).draws = s.draws := rfl

end Sys2Proof.Machine
end

