-- ==== Sys2Proof/Laws/Ops.lean ====
section
/-! SUPPORT. One lemma for each shared operation over registers, memory, the stack, the keypad and the framebuffer: what it
can do, said once. -/

namespace Sys2Proof.Machine

/-! ### Registers and slots -/

theorem State.getV_setV (s : State) (x y : Reg) (b : Byte) :
    (s.setV x b).getV y = if y = x then b else s.getV y := by
  show (s.v.set x.val b x.isLt).get y = _
  rw [Vector.get_eq_getElem, Vector.getElem_set]
  by_cases h : y = x
  · subst h; simp
  · rw [if_neg (fun e => h (Fin.ext e.symm)), if_neg h]; rfl

@[simp] theorem State.getV_setV_same (s : State) (x : Reg) (b : Byte) : (s.setV x b).getV x = b := by
  rw [State.getV_setV, if_pos rfl]

theorem State.getV_setV_ne (s : State) {x y : Reg} (b : Byte) (h : y ≠ x) : (s.setV x b).getV y = s.getV y := by
  rw [State.getV_setV, if_neg h]

theorem State.slot_setSlot (s : State) (k j : Fin 16) (w : Word) :
    (s.setSlot k w).slot j = if j = k then w else s.slot j := by
  show (s.stack.set k.val w k.isLt).get j = _
  rw [Vector.get_eq_getElem, Vector.getElem_set]
  by_cases h : j = k
  · subst h; simp
  · rw [if_neg (fun e => h (Fin.ext e.symm)), if_neg h]; rfl

theorem State.keyDown_setKey (s : State) (k j : Key) (p : Bool) :
    (s.setKey k p).keyDown j = if j = k then p else s.keyDown j := by
  show (s.key.set k.val p k.isLt).get j = _
  rw [Vector.get_eq_getElem, Vector.getElem_set]
  by_cases h : j = k
  · subst h; simp
  · rw [if_neg (fun e => h (Fin.ext e.symm)), if_neg h]; rfl

/-- The two writes of a flag-setting instruction: Vx is the result, VF the flag unless x = 0xF (R173). -/
theorem State.getV_setFlagThenV (s : State) (x y : Reg) (f r : Byte) :
    (s.setFlagThenV x f r).getV y = if y = x then r else if y = VF then f else s.getV y := by
  rw [State.setFlagThenV, State.getV_setV, State.getV_setV]

/-! ### The error channel and memory -/

/-- The address check adds the bit of MemoryOutOfRange to STEP_ERR if the address is above 4095, and does nothing else. -/
theorem State.checkAddr_eq (s : State) (ea : Nat) :
    s.checkAddr ea = { s with cur := ⟨s.cur.rnd, s.cur.err ||| if ea > 4095 then StepError.memoryOutOfRange.bit else 0#4⟩ } := by
  unfold State.checkAddr
  split
  · rfl
  · simp

theorem State.memWrite_eq (s : State) (ea : Nat) (b : Byte) :
    s.memWrite ea b = { s with
      cur := ⟨s.cur.rnd, s.cur.err ||| if ea > 4095 then StepError.memoryOutOfRange.bit else 0#4⟩
      mem := s.mem.write (ea % Config.memSize) b } := by
  rw [State.memWrite, State.checkAddr_eq]

/-- A store and a later read, both at addresses modulo 4096 (R65). -/
theorem State.readByte_memWrite (s : State) (h : s.mem.wf) (ea ea' : Nat) (b : Byte) :
    (s.memWrite ea b).readByte ea' =
      if ea' % Config.memSize = ea % Config.memSize then b else s.readByte ea' := by
  simp only [State.readByte, State.memWrite_eq]
  exact Memory.read_write h _ _ _

theorem State.wf_memWrite (s : State) (h : s.mem.wf) (ea : Nat) (b : Byte) : (s.memWrite ea b).mem.wf := by
  rw [State.memWrite_eq]
  exact Memory.wf_write h (Nat.mod_lt _ (by decide)) b

theorem State.wf_placeWord (s : State) (h : s.mem.wf) (a : Nat) (hi lo : Byte) : (s.placeWord a hi lo).mem.wf :=
  Memory.wf_write (Memory.wf_write h (Nat.mod_lt _ (by decide)) hi) (Nat.mod_lt _ (by decide)) lo

/-! ### Program counter -/

theorem State.skipIf_eq (s : State) (c : Bool) :
    s.skipIf c = { s with pc := if c then s.pc + 2#16 else s.pc } := by
  cases c <;> rfl

/-! ### Call stack -/

/-- A push with SP = k < 16 writes slot k and raises SP to k + 1 (R24). -/
theorem State.push_of_room (s : State) (w : Word) {k : Fin 16} (h : s.sp.val = k.val) :
    s.push w = some { s.setSlot k w with sp := ⟨k.val + 1, by omega⟩ } := by
  have hlt : s.sp.val < 16 := by omega
  obtain rfl : k = ⟨s.sp.val, hlt⟩ := Fin.ext h.symm
  unfold State.push
  rw [dif_pos hlt]

theorem State.push_full (s : State) (w : Word) (h : s.sp.val = 16) : s.push w = none := by
  unfold State.push
  rw [dif_neg (by omega)]

/-- A pop with SP = k + 1 reads slot k, which keeps its content, and lowers SP to k (R24). -/
theorem State.pop_of_some (s : State) {k : Fin 16} (h : s.sp.val = k.val + 1) :
    s.pop = some (s.slot k, { s with sp := ⟨k.val, by omega⟩ }) := by
  have hlt : 0 < s.sp.val := by omega
  have hk : s.sp.val - 1 = k.val := by omega
  unfold State.pop
  rw [dif_pos hlt]
  congr

theorem State.pop_empty (s : State) (h : s.sp.val = 0) : s.pop = none := by
  unfold State.pop
  rw [dif_neg (by omega)]

/-- A stack pointer is 0 or one more than a slot number. -/
theorem sp_zero_or_succ (p : Fin 17) : p.val = 0 ∨ ∃ k : Fin 16, p.val = k.val + 1 := by
  rcases Nat.eq_zero_or_pos p.val with h | h
  · exact .inl h
  · exact .inr ⟨⟨p.val - 1, by omega⟩, by simp only []; omega⟩

/-- A stack pointer is a slot number or 16. -/
theorem sp_slot_or_full (p : Fin 17) : (∃ k : Fin 16, p.val = k.val) ∨ p.val = 16 := by
  by_cases h : p.val < 16
  · exact .inl ⟨⟨p.val, h⟩, rfl⟩
  · exact .inr (by omega)

/-! ### Four-bit numbers, register ranges, the lowest key -/

theorem mem_nibbles (k : Fin 16) : k ∈ nibbles := by revert k; decide

theorem mem_regsUpTo (x r : Reg) : r ∈ regsUpTo x ↔ r ≤ x := by revert x r; decide

theorem nodup_regsUpTo (x : Reg) : (regsUpTo x).Nodup := by revert x; decide

theorem State.lowestKey_none (s : State) : s.lowestKey = none ↔ ∀ k, s.keyDown k = false := by
  simp only [State.lowestKey, List.find?_eq_none, Bool.not_eq_true]
  exact ⟨fun h k => h k (mem_nibbles k), fun h k _ => h k⟩

theorem nibbles_sorted : nibbles.Pairwise (· < ·) := by decide

/-- `find?` on an ascending list gives the least element that qualifies. -/
theorem find_least {p : Fin 16 → Bool} {l : List (Fin 16)} (hl : l.Pairwise (· < ·)) {k : Fin 16} (hk : k ∈ l)
    (hp : p k = true) (hmin : ∀ j < k, p j = false) : l.find? p = some k := by
  induction l with
  | nil => cases hk
  | cons a l ih =>
    rcases List.mem_cons.1 hk with rfl | hk
    · simp [hp]
    · have hak : a < k := (List.pairwise_cons.1 hl).1 k hk
      rw [List.find?_cons_of_neg (by simp [hmin a hak])]
      exact ih hl.tail hk

theorem State.lowestKey_some (s : State) {k : Key} (hp : s.keyDown k = true) (hmin : ∀ j < k, s.keyDown j = false) :
    s.lowestKey = some k :=
  find_least nibbles_sorted (mem_nibbles k) hp hmin

/-! ### Framebuffer -/

/-- A toggle flips its own cell and leaves every other cell of the grid alone. -/
theorem Framebuffer.cell_toggle (fb : Framebuffer) {cx cy cx' cy' : Nat} (hx : cx < 64) :
    Framebuffer.cell (Framebuffer.toggle fb cx cy) cx' cy' =
      (Framebuffer.cell fb cx' cy' ^^ decide (cx' = cx ∧ cy' = cy ∧ cy < 32)) := by
  unfold Framebuffer.toggle Framebuffer.cell
  by_cases hy : cy < 32
  · simp only [hy, dif_pos]
    by_cases hy' : cy' < 32
    · simp only [hy', dif_pos]
      by_cases hcy : cy' = cy
      · subst hcy
        simp only [Vector.getElem_set_self, BitVec.getLsbD_xor]
        congr 1
        simp only [BitVec.getLsbD_shiftLeft, BitVec.getLsbD_one]
        by_cases hcx : cx' = cx
        · subst hcx; simp [hx]
        · by_cases hlt : cx' < cx
          · simp [hcx, hlt]
          · have : cx' - cx ≠ 0 := by omega
            simp [hcx, this]
      · rw [Vector.getElem_set_ne _ _ (fun e => hcy e.symm)]
        simp [hcy]
    · have : ¬ cy' = cy := by omega
      simp [hy', this]
  · simp [hy]

@[simp] theorem Framebuffer.cell_clear (cx cy : Nat) : Framebuffer.cell Framebuffer.clear cx cy = false := by
  unfold Framebuffer.cell Framebuffer.clear
  split
  · simp
  · rfl

end Sys2Proof.Machine
end

