-- ==== Sys2Proof/Laws/Cycle.lean ====
section
/-! SUPPORT. The opening and the closing of a Step, said once (40_step_cycle.md R120 to R124). -/

namespace Sys2Proof.Machine

theorem wordOfBytes_toNat (hi lo : Byte) : (wordOfBytes hi lo).toNat = 256 * hi.toNat + lo.toNat := by
  show BitVec.toNat (w := 8 + 8) (hi ++ lo) = _
  rw [BitVec.toNat_append, ← Nat.shiftLeft_add_eq_or_of_lt lo.isLt, Nat.shiftLeft_eq]
  omega

/-- The two address checks of the fetch come to one: PC + 1 above 4095. -/
theorem State.beginStep_eq (s : State) (rnd : Byte) :
    s.beginStep rnd = { s with
      pc := s.pc + 2#16
      cur := ⟨rnd, if s.pc.toNat + 1 > 4095 then StepError.memoryOutOfRange.bit else 0#4⟩ } := by
  simp only [State.beginStep, State.checkAddr_eq, State.advancePc, State.setPc]
  congr 2
  by_cases h1 : s.pc.toNat > 4095
  · rw [if_pos h1, if_pos (by omega)]; decide
  · rw [if_neg h1]; simp

/-- A tick takes one off, and nothing off zero. -/
theorem tickByte_toNat (b : Byte) : (tickByte b).toNat = b.toNat - 1 := by
  unfold tickByte
  split
  · next h => subst h; rfl
  · next h =>
    have hb : b.toNat ≠ 0 := fun e => h (BitVec.eq_of_toNat_eq e)
    rw [BitVec.toNat_sub_of_le (by rw [BitVec.le_def]; simp; omega)]
    rfl

/-- What a Step is, given what its handler answers. -/
theorem stepWith_of_exec {rnd : Byte} {s u : State} (h : exec (decodeWord s.opcode) (s.beginStep rnd) = .next u) :
    stepWith rnd s = .next (u.endStep, { stepErr := u.cur.err, stepPc := s.pc, stepOpcode := s.opcode }) := by
  rw [stepWith, h]

/-- The converse: a Step that answers a next state closes the state of its handler. -/
theorem exec_of_stepWith {rnd : Byte} {s t : State} {r : StepReport} (h : stepWith rnd s = .next (t, r)) :
    ∃ u, exec (decodeWord s.opcode) (s.beginStep rnd) = .next u ∧ t = u.endStep ∧
      r = { stepErr := u.cur.err, stepPc := s.pc, stepOpcode := s.opcode } := by
  unfold stepWith at h
  split at h
  · next u hu =>
    simp only [Host.Outcome.next.injEq, Prod.mk.injEq] at h
    exact ⟨u, hu, h.1.symm, h.2.symm⟩
  · cases h
  · cases h

/-- The machine's step is the Step with the entropy source's next byte. -/
theorem step_of_stepWith {s t : State} {r : StepReport} (h : stepWith (Config.rnd s.draws) s.draw = .next (t, r)) :
    step s = .next t := by
  rw [step, stepFresh, h]

theorem stepWith_of_step {s t : State} (h : step s = .next t) :
    ∃ r, stepWith (Config.rnd s.draws) s.draw = .next (t, r) := by
  unfold step stepFresh at h
  split at h
  · next u r hu =>
    simp only [Host.Outcome.next.injEq] at h
    exact ⟨r, h ▸ hu⟩
  · cases h
  · cases h

end Sys2Proof.Machine
end

