-- ==== Sys2Proof/Laws/Decode.lean ====
section
/-! SUPPORT. The fields of a word that a format puts together (30_encoding.md R91, R92), and what the two-level dispatcher
answers on each primary selector (R95). -/

namespace Sys2Proof

theorem getLsbD_formatA (p : BitVec 4) (nnn : Addr12) (j : Nat) :
    (formatA p nnn).getLsbD j = if j < 12 then nnn.getLsbD j else p.getLsbD (j - 12) := by
  show BitVec.getLsbD (w := 4 + 12) (p ++ nnn) j = _
  rw [BitVec.getLsbD_append]

theorem getLsbD_formatXK (p : BitVec 4) (x : Reg) (kk : Byte) (j : Nat) :
    (formatXK p x kk).getLsbD j =
      if j < 8 then kk.getLsbD j else if j < 12 then (BitVec.ofFin x : BitVec 4).getLsbD (j - 8) else p.getLsbD (j - 12) := by
  show BitVec.getLsbD (w := 4 + 4 + 8) (p ++ (BitVec.ofFin x : BitVec 4) ++ kk) j = _
  rw [BitVec.getLsbD_append, BitVec.getLsbD_append]
  by_cases h8 : j < 8
  · simp [h8]
  · by_cases h12 : j < 12
    · simp [h8, h12, show j - 8 < 4 by omega]
    · simp [h8, h12, show ¬ j - 8 < 4 by omega, show j - 8 - 4 = j - 12 by omega]

theorem getLsbD_formatXYN (p : BitVec 4) (x y : Reg) (n : BitVec 4) (j : Nat) :
    (formatXYN p x y n).getLsbD j =
      if j < 4 then n.getLsbD j else if j < 8 then (BitVec.ofFin y : BitVec 4).getLsbD (j - 4)
      else if j < 12 then (BitVec.ofFin x : BitVec 4).getLsbD (j - 8) else p.getLsbD (j - 12) := by
  show BitVec.getLsbD (w := 4 + 4 + 4 + 4) (p ++ (BitVec.ofFin x : BitVec 4) ++ (BitVec.ofFin y : BitVec 4) ++ n) j = _
  rw [BitVec.getLsbD_append, BitVec.getLsbD_append, BitVec.getLsbD_append]
  by_cases h4 : j < 4
  · simp [h4]
  · by_cases h8 : j < 8
    · simp [h4, h8, show j - 4 < 4 by omega]
    · by_cases h12 : j < 12
      · simp [h4, h8, h12, show ¬ j - 4 < 4 by omega, show j - 4 - 4 = j - 8 by omega, show j - 8 < 4 by omega]
      · simp [h4, h8, h12, show ¬ j - 4 < 4 by omega, show j - 4 - 4 = j - 8 by omega, show ¬ j - 8 < 4 by omega,
          show j - 8 - 4 = j - 12 by omega]

/-- A slice of a word is the vector with those bits. -/
theorem extract_eq {w : Word} {start len : Nat} {v : BitVec len}
    (h : ∀ j < len, w.getLsbD (start + j) = v.getLsbD j) : w.extractLsb' start len = v := by
  apply BitVec.eq_of_getLsbD_eq
  intro j hj
  rw [BitVec.getLsbD_extractLsb', h j hj]
  simp [hj]

@[simp] theorem fieldP_formatA (p : BitVec 4) (nnn : Addr12) : fieldP (formatA p nnn) = p :=
  extract_eq fun j _ => by rw [getLsbD_formatA, if_neg (by omega)]; congr 1; omega

@[simp] theorem fieldNNN_formatA (p : BitVec 4) (nnn : Addr12) : fieldNNN (formatA p nnn) = nnn :=
  extract_eq fun j hj => by rw [getLsbD_formatA, if_pos (by omega)]; congr 1; omega

@[simp] theorem fieldP_formatXK (p : BitVec 4) (x : Reg) (kk : Byte) : fieldP (formatXK p x kk) = p :=
  extract_eq fun j _ => by rw [getLsbD_formatXK, if_neg (by omega), if_neg (by omega)]; congr 1; omega

@[simp] theorem fieldX_formatXK (p : BitVec 4) (x : Reg) (kk : Byte) : fieldX (formatXK p x kk) = x := by
  rw [fieldX, extract_eq (v := BitVec.ofFin x)]
  intro j hj
  rw [getLsbD_formatXK, if_neg (by omega), if_pos (by omega)]; congr 1; omega

@[simp] theorem fieldKK_formatXK (p : BitVec 4) (x : Reg) (kk : Byte) : fieldKK (formatXK p x kk) = kk :=
  extract_eq fun j hj => by rw [getLsbD_formatXK, if_pos (by omega)]; congr 1; omega

@[simp] theorem fieldP_formatXYN (p : BitVec 4) (x y : Reg) (n : BitVec 4) : fieldP (formatXYN p x y n) = p :=
  extract_eq fun j _ => by
    rw [getLsbD_formatXYN, if_neg (by omega), if_neg (by omega), if_neg (by omega)]; congr 1; omega

@[simp] theorem fieldX_formatXYN (p : BitVec 4) (x y : Reg) (n : BitVec 4) : fieldX (formatXYN p x y n) = x := by
  rw [fieldX, extract_eq (v := BitVec.ofFin x)]
  intro j hj
  rw [getLsbD_formatXYN, if_neg (by omega), if_neg (by omega), if_pos (by omega)]; congr 1; omega

@[simp] theorem fieldY_formatXYN (p : BitVec 4) (x y : Reg) (n : BitVec 4) : fieldY (formatXYN p x y n) = y := by
  rw [fieldY, extract_eq (v := BitVec.ofFin y)]
  intro j hj
  rw [getLsbD_formatXYN, if_neg (by omega), if_pos (by omega)]; congr 1; omega

@[simp] theorem selectorN_formatXYN (p : BitVec 4) (x y : Reg) (n : BitVec 4) : selectorN (formatXYN p x y n) = n :=
  extract_eq fun j hj => by rw [getLsbD_formatXYN, if_pos (by omega)]; congr 1; omega

@[simp] theorem fieldN_formatXYN (p : BitVec 4) (x y n : Reg) :
    fieldN (formatXYN p x y (BitVec.ofFin n)) = n := by
  rw [fieldN, extract_eq (v := BitVec.ofFin n)]
  intro j hj
  rw [getLsbD_formatXYN, if_pos (by omega)]; congr 1; omega

/-- The low nibble of a word is the low nibble of its `kk`. -/
theorem selectorN_eq_fieldKK (w : Word) : selectorN w = (fieldKK w).extractLsb' 0 4 := by
  apply BitVec.eq_of_getLsbD_eq
  intro j hj
  simp only [selectorN, fieldKK, BitVec.getLsbD_extractLsb']
  simp [hj, show j < 8 by omega]

/-- The two bytes of a word put together again. -/
@[simp] theorem wordOfBytes_bytes (w : Word) : wordOfBytes (highByte w) (lowByte w) = w := by
  apply BitVec.eq_of_getLsbD_eq
  intro j hj
  show BitVec.getLsbD (w := 8 + 8) (highByte w ++ lowByte w) j = _
  rw [BitVec.getLsbD_append]
  simp only [highByte, lowByte, BitVec.getLsbD_extractLsb']
  by_cases h : j < 8
  · simp [h]
  · simp [h, show j - 8 < 8 by omega, show 8 + (j - 8) = j by omega]

/-- A word is its four nibbles. -/
theorem word_eq_formatXYN (w : Word) : w = formatXYN (fieldP w) (fieldX w) (fieldY w) (selectorN w) := by
  apply BitVec.eq_of_getLsbD_eq
  intro j hj
  rw [getLsbD_formatXYN]
  simp only [fieldP, fieldX, fieldY, selectorN, BitVec.ofFin_toFin, BitVec.getLsbD_extractLsb']
  split_ifs with h4 h8 h12
  · simp [h4]
  · simp [show j - 4 < 4 by omega, show 4 + (j - 4) = j by omega]
  · simp [show j - 8 < 4 by omega, show 8 + (j - 8) = j by omega]
  · simp [show j - 12 < 4 by omega, show 12 + (j - 12) = j by omega]

/-- A word is its primary selector, x and kk. -/
theorem word_eq_formatXK (w : Word) : w = formatXK (fieldP w) (fieldX w) (fieldKK w) := by
  apply BitVec.eq_of_getLsbD_eq
  intro j hj
  rw [getLsbD_formatXK]
  simp only [fieldP, fieldX, fieldKK, BitVec.ofFin_toFin, BitVec.getLsbD_extractLsb']
  split_ifs with h8 h12
  · simp [h8]
  · simp [show j - 8 < 4 by omega, show 8 + (j - 8) = j by omega]
  · simp [show j - 12 < 4 by omega, show 12 + (j - 12) = j by omega]

/-- A word is its primary selector and nnn. -/
theorem word_eq_formatA (w : Word) : w = formatA (fieldP w) (fieldNNN w) := by
  apply BitVec.eq_of_getLsbD_eq
  intro j hj
  rw [getLsbD_formatA]
  simp only [fieldP, fieldNNN, BitVec.getLsbD_extractLsb']
  split_ifs with h12
  · simp [h12]
  · simp [show j - 12 < 4 by omega, show 12 + (j - 12) = j by omega]

/-- Masking with 0xF000 examines the primary selector alone (R94, step 1). -/
theorem mask_F000 (w : Word) (p : BitVec 4) : w &&& 0xF000#16 = formatA p 0#12 ↔ fieldP w = p := by
  have hm : ∀ j < 16, (0xF000#16).getLsbD j = decide (12 ≤ j) := by decide
  constructor
  · intro h
    refine extract_eq fun j hj => ?_
    have := congrArg (fun v => BitVec.getLsbD v (12 + j)) h
    simpa [getLsbD_formatA, hm (12 + j) (by omega)] using this
  · rintro rfl
    apply BitVec.eq_of_getLsbD_eq
    intro j hj
    rw [BitVec.getLsbD_and, hm j hj, getLsbD_formatA]
    by_cases h : j < 12
    · simp [h, show ¬ 12 ≤ j by omega]
    · simp [h, show 12 ≤ j by omega, fieldP, show j - 12 < 4 by omega, show 12 + (j - 12) = j by omega]

/-- Masking with 0xF00F examines the primary selector and the low nibble (R94, step 2). -/
theorem mask_F00F (w : Word) (p n : BitVec 4) :
    w &&& 0xF00F#16 = formatXYN p 0 0 n ↔ fieldP w = p ∧ selectorN w = n := by
  have hm : ∀ j < 16, (0xF00F#16).getLsbD j = decide (j < 4 ∨ 12 ≤ j) := by decide
  constructor
  · intro h
    refine ⟨extract_eq fun j hj => ?_, extract_eq fun j hj => ?_⟩
    · have := congrArg (fun v => BitVec.getLsbD v (12 + j)) h
      simpa [getLsbD_formatXYN, hm (12 + j) (by omega), show ¬ 12 + j < 4 by omega, show ¬ 12 + j < 8 by omega] using this
    · have := congrArg (fun v => BitVec.getLsbD v j) h
      simpa [getLsbD_formatXYN, hm j (by omega), hj] using this
  · rintro ⟨rfl, rfl⟩
    apply BitVec.eq_of_getLsbD_eq
    intro j hj
    rw [BitVec.getLsbD_and, hm j hj, getLsbD_formatXYN]
    by_cases h4 : j < 4
    · simp [h4, selectorN]
    · by_cases h12 : j < 12
      · by_cases h8 : j < 8 <;> simp [h4, h8, h12, show ¬ 12 ≤ j by omega]
      · simp [h4, h12, show ¬ j < 8 by omega, show 12 ≤ j by omega, fieldP, show j - 12 < 4 by omega,
          show 12 + (j - 12) = j by omega]

/-- Masking with 0xF0FF examines the primary selector and the low byte (R94, step 2, selector 0xF). -/
theorem mask_F0FF (w : Word) (p : BitVec 4) (kk : Byte) :
    w &&& 0xF0FF#16 = formatXK p 0 kk ↔ fieldP w = p ∧ fieldKK w = kk := by
  have hm : ∀ j < 16, (0xF0FF#16).getLsbD j = decide (j < 8 ∨ 12 ≤ j) := by decide
  constructor
  · intro h
    refine ⟨extract_eq fun j hj => ?_, extract_eq fun j hj => ?_⟩
    · have := congrArg (fun v => BitVec.getLsbD v (12 + j)) h
      simpa [getLsbD_formatXK, hm (12 + j) (by omega), show ¬ 12 + j < 8 by omega] using this
    · have := congrArg (fun v => BitVec.getLsbD v j) h
      simpa [getLsbD_formatXK, hm j (by omega), hj] using this
  · rintro ⟨rfl, rfl⟩
    apply BitVec.eq_of_getLsbD_eq
    intro j hj
    rw [BitVec.getLsbD_and, hm j hj, getLsbD_formatXK]
    by_cases h8 : j < 8
    · simp [h8, fieldKK]
    · by_cases h12 : j < 12
      · simp [h8, h12, show ¬ 12 ≤ j by omega]
      · simp [h8, h12, show 12 ≤ j by omega, fieldP, show j - 12 < 4 by omega, show 12 + (j - 12) = j by omega]

end Sys2Proof
end

