-- ==== Sys2Proof/Laws/Display.lean ====
section
/-! SUPPORT. What the loops of Dxyn can do, said once for the columns of a row and once for the rows. -/

namespace Sys2Proof.Machine

/-- Whether a sprite byte, drawn from column x0, has a set bit for column cx among its columns `cs`. -/
def columnBit (x0 : Nat) (b : Byte) (cs : List Nat) (cx : Nat) : Bool :=
  cs.any fun c => decide (cx = x0 + c) && b.getLsbD (7 - c)

theorem State.cell_drawCell (s : State) {cx cy cx' cy' : Nat} (hx : cx < 64) (hy : cy < 32) :
    (s.drawCell cx cy).cell cx' cy' = (s.cell cx' cy' ^^ decide (cx' = cx ∧ cy' = cy)) := by
  have h : ∀ t : State, Framebuffer.cell (Framebuffer.toggle t.fb cx cy) cx' cy' = (t.cell cx' cy' ^^ decide (cx' = cx ∧ cy' = cy)) := by
    intro t
    rw [Framebuffer.cell_toggle _ hx]
    simp [hy, State.cell]
  unfold State.drawCell
  split
  · exact h _
  · exact h _

theorem State.drawCell_frame (s : State) (cx cy : Nat) :
    s.drawCell cx cy = { s with v := (s.drawCell cx cy).v, fb := (s.drawCell cx cy).fb } := by
  unfold State.drawCell
  split <;> rfl

theorem State.getV_drawCell (s : State) (cx cy : Nat) (y : Reg) :
    (s.drawCell cx cy).getV y = if s.cell cx cy = true ∧ y = VF then 1#8 else s.getV y := by
  have h : ∀ t : State, ({ t with fb := Framebuffer.toggle t.fb cx cy } : State).getV y = t.getV y := fun _ => rfl
  unfold State.drawCell
  rw [h]
  by_cases hc : s.cell cx cy = true
  · simp only [hc, if_true, State.getV_setV, true_and]
  · simp [hc]

open Classical in
/-- The columns of one sprite row: each cell of the grid is XORed with the byte's bit for it, VF becomes 1 exactly if a
set cell met a set bit, nothing else changes. -/
theorem State.drawColumns_spec (x0 cy : Nat) (b : Byte) (cs : List Nat) (s : State) (hcs : cs.Nodup) (hy : cy < 32) :
    (∀ cx cy', cx < 64 → (State.drawColumns x0 cy b cs s).cell cx cy' =
      (s.cell cx cy' ^^ (decide (cy' = cy) && columnBit x0 b cs cx))) ∧
    (∀ y : Reg, (State.drawColumns x0 cy b cs s).getV y =
      if y = VF ∧ ∃ cx < 64, columnBit x0 b cs cx = true ∧ s.cell cx cy = true then 1#8 else s.getV y) ∧
    State.drawColumns x0 cy b cs s =
      { s with v := (State.drawColumns x0 cy b cs s).v, fb := (State.drawColumns x0 cy b cs s).fb } := by
  induction cs generalizing s with
  | nil => refine ⟨?_, ?_, rfl⟩ <;> simp [State.drawColumns, columnBit]
  | cons c cs ih =>
    obtain ⟨hc, hcs⟩ := List.nodup_cons.1 hcs
    have hno : columnBit x0 b cs (x0 + c) = false := by
      rw [columnBit, List.any_eq_false]
      intro d hd
      have : c ≠ d := fun e => hc (e ▸ hd)
      simp [this]
    have hcons : ∀ cx, columnBit x0 b (c :: cs) cx =
        ((decide (cx = x0 + c) && b.getLsbD (7 - c)) || columnBit x0 b cs cx) := fun cx => rfl
    by_cases hd : x0 + c ≤ 63 ∧ b.getLsbD (7 - c) = true
    · obtain ⟨h1, h2, h3⟩ := ih (s.drawCell (x0 + c) cy) hcs
      have hstep : State.drawColumns x0 cy b (c :: cs) s = State.drawColumns x0 cy b cs (s.drawCell (x0 + c) cy) := by
        rw [State.drawColumns, if_pos hd]
      rw [hstep]
      refine ⟨fun cx cy' hcx => ?_, fun y => ?_, ?_⟩
      · rw [h1 cx cy' hcx, State.cell_drawCell s (by omega) hy, hcons, hd.2]
        by_cases he : cx = x0 + c
        · subst he
          by_cases hyy : cy' = cy <;> simp [hyy, hno]
        · simp [he]
      · rw [h2 y, State.getV_drawCell]
        by_cases hyv : y = VF
        · subst hyv
          simp only [true_and, and_true]
          have hx : (∃ cx < 64, columnBit x0 b (c :: cs) cx = true ∧ s.cell cx cy = true) ↔
              (∃ cx < 64, columnBit x0 b cs cx = true ∧ (s.drawCell (x0 + c) cy).cell cx cy = true) ∨
                s.cell (x0 + c) cy = true := by
            constructor
            · rintro ⟨cx, hcx, hb, hcell⟩
              by_cases he : cx = x0 + c
              · exact .inr (he ▸ hcell)
              · refine .inl ⟨cx, hcx, by simpa [hcons, he] using hb, ?_⟩
                rw [State.cell_drawCell s (by omega) hy]
                simp [he, hcell]
            · rintro (⟨cx, hcx, hb, hcell⟩ | hcell)
              · have he : cx ≠ x0 + c := by
                  rintro rfl
                  rw [hno] at hb; cases hb
                rw [State.cell_drawCell s (by omega) hy] at hcell
                exact ⟨cx, hcx, by rw [hcons, hb]; simp, by simpa [he] using hcell⟩
              · exact ⟨x0 + c, by omega, by rw [hcons, hd.2]; simp, hcell⟩
          by_cases ha : ∃ cx < 64, columnBit x0 b cs cx = true ∧ (s.drawCell (x0 + c) cy).cell cx cy = true
          · rw [if_pos ha, if_pos (hx.2 (.inl ha))]
          · by_cases hb : s.cell (x0 + c) cy = true
            · rw [if_neg ha, if_pos hb, if_pos (hx.2 (.inr hb))]
            · rw [if_neg ha, if_neg hb, if_neg (fun h => (hx.1 h).elim ha hb)]
        · simp [hyv]
      · rw [h3, State.drawCell_frame]
    · obtain ⟨h1, h2, h3⟩ := ih s hcs
      have hstep : State.drawColumns x0 cy b (c :: cs) s = State.drawColumns x0 cy b cs s := by
        rw [State.drawColumns, if_neg hd]
      have hsame : ∀ cx < 64, columnBit x0 b (c :: cs) cx = columnBit x0 b cs cx := by
        intro cx hcx
        rw [hcons]
        by_cases he : cx = x0 + c
        · have : b.getLsbD (7 - c) = false := by
            by_contra hb
            exact hd ⟨by omega, by simpa using hb⟩
          simp [this]
        · simp [he]
      rw [hstep]
      refine ⟨fun cx cy' hcx => by rw [h1 cx cy' hcx, hsame cx hcx], fun y => ?_, h3⟩
      rw [h2 y]
      congr 1
      apply propext
      constructor
      · rintro ⟨hy, cx, hcx, hb, hc⟩
        exact ⟨hy, cx, hcx, (hsame cx hcx).trans hb, hc⟩
      · rintro ⟨hy, cx, hcx, hb, hc⟩
        exact ⟨hy, cx, hcx, (hsame cx hcx).symm.trans hb, hc⟩

theorem columnBit_range (x0 : Nat) (b : Byte) (cx : Nat) :
    columnBit x0 b (List.range 8) cx = (decide (x0 ≤ cx ∧ cx < x0 + 8) && b.getLsbD (7 - (cx - x0))) := by
  rw [Bool.eq_iff_iff]
  simp only [columnBit, List.any_eq_true, List.mem_range, Bool.and_eq_true, decide_eq_true_eq]
  constructor
  · rintro ⟨c, hc, rfl, hb⟩
    exact ⟨by omega, by rwa [show x0 + c - x0 = c by omega]⟩
  · rintro ⟨⟨h1, h2⟩, hb⟩
    exact ⟨cx - x0, by omega, by omega, hb⟩

/-- Whether the sprite has a set bit for the cell (cx, cy) in one of its rows `rs` (R212). -/
def State.rowsBit (s : State) (x0 y0 : Nat) (rs : List Nat) (cx cy : Nat) : Bool :=
  rs.any fun r => decide (cy = y0 + r) && columnBit x0 (s.readByte (s.i.toNat + r)) (List.range 8) cx

open Classical in
/-- The rows of a sprite, in ascending order: each cell of the grid is XORed with the sprite's bit for it, VF becomes 1
exactly if a set cell met a set bit, the address check is made of every row not clipped at the bottom edge, nothing else
changes. -/
theorem State.drawRows_spec (x0 y0 : Nat) (rs : List Nat) (s : State) (hrs : rs.Pairwise (· < ·)) :
    (∀ cx cy, cx < 64 → cy < 32 → (State.drawRows x0 y0 rs s).cell cx cy =
      (s.cell cx cy ^^ s.rowsBit x0 y0 rs cx cy)) ∧
    (∀ y : Reg, (State.drawRows x0 y0 rs s).getV y =
      if y = VF ∧ ∃ cx < 64, ∃ cy < 32, s.rowsBit x0 y0 rs cx cy = true ∧ s.cell cx cy = true then 1#8 else s.getV y) ∧
    State.drawRows x0 y0 rs s = { s with
      v := (State.drawRows x0 y0 rs s).v
      fb := (State.drawRows x0 y0 rs s).fb
      cur := ⟨s.cur.rnd, s.cur.err ||| if ∃ r ∈ rs, y0 + r ≤ 31 ∧ s.i.toNat + r > 4095 then
        StepError.memoryOutOfRange.bit else 0#4⟩ } := by
  induction rs generalizing s with
  | nil => refine ⟨?_, ?_, ?_⟩ <;> simp [State.drawRows, State.rowsBit]
  | cons r rs ih =>
    obtain ⟨hr, hrs⟩ := List.pairwise_cons.1 hrs
    by_cases hclip : y0 + r > 31
    · have hstop : State.drawRows x0 y0 (r :: rs) s = s := by rw [State.drawRows, if_pos hclip]
      have hno : ∀ cx cy, cy < 32 → s.rowsBit x0 y0 (r :: rs) cx cy = false := by
        intro cx cy hcy
        rw [State.rowsBit, List.any_eq_false]
        intro q hq
        have : r ≤ q := by
          rcases List.mem_cons.1 hq with rfl | hq
          · exact le_rfl
          · exact (hr q hq).le
        have : cy ≠ y0 + q := by omega
        simp [this]
      rw [hstop]
      refine ⟨fun cx cy _ hcy => by simp [hno cx cy hcy], fun y => ?_, ?_⟩
      · rw [if_neg]
        rintro ⟨-, cx, -, cy, hcy, hb, -⟩
        rw [hno cx cy hcy] at hb
        cases hb
      · rw [if_neg]
        · simp
        · rintro ⟨q, hq, hle, -⟩
          rcases List.mem_cons.1 hq with rfl | hq
          · omega
          · have := hr q hq; omega
    · have hrow : y0 + r < 32 := by omega
      set b := s.readByte (s.i.toNat + r) with hbdef
      obtain ⟨c1, c2, c3⟩ := State.drawColumns_spec x0 (y0 + r) b (List.range 8) (s.checkAddr (s.i.toNat + r)) List.nodup_range hrow
      set u := State.drawColumns x0 (y0 + r) b (List.range 8) (s.checkAddr (s.i.toNat + r)) with hu
      have hstep : State.drawRows x0 y0 (r :: rs) s = State.drawRows x0 y0 rs u := by
        rw [State.drawRows, if_neg hclip]
        rfl
      have hcell : ∀ cx cy, (s.checkAddr (s.i.toNat + r)).cell cx cy = s.cell cx cy := by
        intro cx cy; rw [State.checkAddr_eq]; rfl
      have hgetV : ∀ y, (s.checkAddr (s.i.toNat + r)).getV y = s.getV y := by
        intro y; rw [State.checkAddr_eq]; rfl
      have hui : u.i = s.i := by rw [c3, State.checkAddr_eq]
      have hum : u.mem = s.mem := by rw [c3, State.checkAddr_eq]
      have hrows : ∀ cx cy, u.rowsBit x0 y0 rs cx cy = s.rowsBit x0 y0 rs cx cy := by
        intro cx cy
        simp only [State.rowsBit, State.readByte, hui, hum]
      obtain ⟨h1, h2, h3⟩ := ih u hrs
      have hcons : ∀ cx cy, s.rowsBit x0 y0 (r :: rs) cx cy =
          ((decide (cy = y0 + r) && columnBit x0 b (List.range 8) cx) || s.rowsBit x0 y0 rs cx cy) := fun cx cy => rfl
      have hdisj : ∀ cx, s.rowsBit x0 y0 rs cx (y0 + r) = false := by
        intro cx
        rw [State.rowsBit, List.any_eq_false]
        intro q hq
        have : r ≠ q := (hr q hq).ne
        simp [this]
      rw [hstep]
      refine ⟨fun cx cy hcx hcy => ?_, fun y => ?_, ?_⟩
      · rw [h1 cx cy hcx hcy, hrows, c1 cx cy hcx, hcell, hcons]
        by_cases he : cy = y0 + r
        · subst he
          simp [hdisj]
        · simp [he]
      · rw [h2 y]
        simp only [hrows]
        by_cases hyv : y = VF
        · subst hyv
          simp only [true_and]
          rw [c2 VF]
          simp only [true_and, hcell, hgetV]
          have hx : (∃ cx < 64, ∃ cy < 32, s.rowsBit x0 y0 (r :: rs) cx cy = true ∧ s.cell cx cy = true) ↔
              (∃ cx < 64, ∃ cy < 32, s.rowsBit x0 y0 rs cx cy = true ∧ u.cell cx cy = true) ∨
                ∃ cx < 64, columnBit x0 b (List.range 8) cx = true ∧ s.cell cx (y0 + r) = true := by
            constructor
            · rintro ⟨cx, hcx, cy, hcy, hb, hcl⟩
              by_cases he : cy = y0 + r
              · subst he
                exact .inr ⟨cx, hcx, by simpa [hcons, hdisj] using hb, hcl⟩
              · refine .inl ⟨cx, hcx, cy, hcy, by simpa [hcons, he] using hb, ?_⟩
                rw [c1 cx cy hcx, hcell]
                simp [he, hcl]
            · rintro (⟨cx, hcx, cy, hcy, hb, hcl⟩ | ⟨cx, hcx, hb, hcl⟩)
              · have he : cy ≠ y0 + r := by
                  rintro rfl
                  rw [hdisj] at hb; cases hb
                rw [c1 cx cy hcx, hcell] at hcl
                exact ⟨cx, hcx, cy, hcy, by rw [hcons, hb]; simp, by simpa [he] using hcl⟩
              · exact ⟨cx, hcx, y0 + r, hrow, by rw [hcons, hb]; simp, hcl⟩
          by_cases ha : ∃ cx < 64, ∃ cy < 32, s.rowsBit x0 y0 rs cx cy = true ∧ u.cell cx cy = true
          · rw [if_pos ha, if_pos (hx.2 (.inl ha))]
          · by_cases hb : ∃ cx < 64, columnBit x0 b (List.range 8) cx = true ∧ s.cell cx (y0 + r) = true
            · rw [if_neg ha, if_pos hb, if_pos (hx.2 (.inr hb))]
            · rw [if_neg ha, if_neg hb, if_neg (fun h => (hx.1 h).elim ha hb)]
        · simp only [hyv, false_and, if_false]
          rw [c2 y]
          simp only [hyv, false_and, if_false, hgetV]
      · have hcur : u.cur = ⟨s.cur.rnd, s.cur.err ||| if s.i.toNat + r > 4095 then
            StepError.memoryOutOfRange.bit else 0#4⟩ := by rw [c3, State.checkAddr_eq]
        rw [h3, hcur, hui]
        have hframe : u = { s with v := u.v, fb := u.fb, cur := u.cur } := by
          conv_lhs => rw [c3, State.checkAddr_eq]
          rw [hcur]
        have hle : y0 + r ≤ 31 := by omega
        have herr : (s.cur.err ||| if s.i.toNat + r > 4095 then StepError.memoryOutOfRange.bit else 0#4) |||
            (if ∃ q ∈ rs, y0 + q ≤ 31 ∧ s.i.toNat + q > 4095 then StepError.memoryOutOfRange.bit else 0#4) =
            s.cur.err ||| if ∃ q ∈ r :: rs, y0 + q ≤ 31 ∧ s.i.toNat + q > 4095 then
              StepError.memoryOutOfRange.bit else 0#4 := by
          simp only [List.exists_mem_cons_iff, hle, true_and, BitVec.or_assoc]
          congr 1
          by_cases g1 : s.i.toNat + r > 4095 <;>
            by_cases g2 : ∃ q ∈ rs, y0 + q ≤ 31 ∧ s.i.toNat + q > 4095 <;> simp only [g1, g2, if_true, if_false, true_or, false_or, or_false] <;> decide
        simp only [herr]
        rw [hframe]

/-- The rows 0..n−1 hold exactly the picture of R212. -/
theorem State.rowsBit_range (s : State) (x0 y0 n cx cy : Nat) :
    s.rowsBit x0 y0 (List.range n) cx cy = s.spriteBit x0 y0 n cx cy := by
  rw [Bool.eq_iff_iff]
  simp only [State.rowsBit, State.spriteBit, columnBit_range, List.any_eq_true, List.mem_range, Bool.and_eq_true,
    decide_eq_true_eq, State.ea]
  constructor
  · rintro ⟨r, hr, rfl, ⟨h1, h2⟩, hb⟩
    exact ⟨⟨h1, h2, by omega, by omega⟩, by rwa [show y0 + r - y0 = r by omega]⟩
  · rintro ⟨⟨h1, h2, h3, h4⟩, hb⟩
    exact ⟨cy - y0, by omega, by omega, ⟨h1, h2⟩, hb⟩

end Sys2Proof.Machine
end

