-- ==== Sys2Proof/Laws/Frame.lean ====
section
/-! SUPPORT. The frame of each shared write, in the terms of Safety.lean: everything but its own pieces of state is kept. -/

namespace Sys2Proof.Machine

theorem KeepsAllBut.refl (p : Component → Prop) (s : State) : KeepsAllBut p s s := by
  intro c _
  cases c <;> rfl

theorem Same.trans {s t u : State} {c : Component} (h : Same s t c) (g : Same t u c) : Same s u c := by
  cases c <;> exact Eq.trans h g

theorem Same.symm {s t : State} {c : Component} (h : Same s t c) : Same t s c := by
  cases c <;> exact Eq.symm h

theorem KeepsAllBut.trans {p : Component → Prop} {s t u : State} (h : KeepsAllBut p s t) (g : KeepsAllBut p t u) :
    KeepsAllBut p s u := fun c hc => (h c hc).trans (g c hc)

theorem KeepsAllBut.mono {p q : Component → Prop} {s t : State} (hpq : ∀ c, p c → q c) (h : KeepsAllBut p s t) :
    KeepsAllBut q s t := fun c hc => h c fun hp => hc (hpq c hp)

theorem State.setV_keeps (s : State) (x : Reg) (b : Byte) : KeepsAllBut (· = .v x) s (s.setV x b) := by
  intro c hc
  cases c with
  | v y => exact (State.getV_setV_ne s b fun e => hc (congrArg Component.v e)).symm
  | _ => rfl

theorem State.setFlagThenV_keeps (s : State) (x : Reg) (f r : Byte) :
    KeepsAllBut (fun c => c = .v VF ∨ c = .v x) s (s.setFlagThenV x f r) :=
  ((s.setV_keeps VF f).mono fun _ => .inl).trans (((s.setV VF f).setV_keeps x r).mono fun _ => .inr)

theorem State.setPc_keeps (s : State) (w : Word) : KeepsAllBut (· = .pc) s (s.setPc w) := by
  intro c hc
  cases c with
  | pc => exact absurd rfl hc
  | _ => rfl

theorem State.skipIf_keeps (s : State) (b : Bool) : KeepsAllBut (· = .pc) s (s.skipIf b) := by
  cases b
  · exact KeepsAllBut.refl _ s
  · exact s.setPc_keeps _

theorem State.setI_keeps (s : State) (w : Word) : KeepsAllBut (· = .i) s (s.setI w) := by
  intro c hc
  cases c with
  | i => exact absurd rfl hc
  | _ => rfl

theorem State.setDt_keeps (s : State) (b : Byte) : KeepsAllBut (· = .dt) s (s.setDt b) := by
  intro c hc
  cases c with
  | dt => exact absurd rfl hc
  | _ => rfl

theorem State.setSt_keeps (s : State) (b : Byte) : KeepsAllBut (· = .st) s (s.setSt b) := by
  intro c hc
  cases c with
  | st => exact absurd rfl hc
  | _ => rfl

theorem State.raise_keeps (s : State) (e : StepError) : KeepsAllBut (· = .stepErr) s (s.raise e) := by
  intro c hc
  cases c with
  | stepErr => exact absurd rfl hc
  | _ => rfl

/-- A store changes its own cell of memory and STEP_ERR, and nothing else, in any state. -/
theorem State.memWrite_keeps (s : State) (ea : Nat) (b : Byte) :
    KeepsAllBut (fun c => (∃ a : Fin 4096, a.val = ea % Config.memSize ∧ c = .mem a) ∨ c = .stepErr) s (s.memWrite ea b) := by
  intro c hc
  rw [State.memWrite_eq]
  cases c with
  | mem a => exact (Memory.read_write_ne _ _ fun e => hc (.inl ⟨a, e, rfl⟩)).symm
  | stepErr => exact absurd (.inr rfl) hc
  | _ => rfl

end Sys2Proof.Machine
end

