-- ==== Sys2Proof/Laws/PerInstr.lean ====
section
/-! SUPPORT. Statements made for each instruction, one lemma per constructor: the word that the encoder writes carries the
fixed digits of its row of 30_encoding.md R96. -/

namespace Sys2Proof.Laws.MatchesRow

open Sys2Proof

/-- R96, column "canonical": the fixed digits of the instruction's printed pattern stand in its encoded word. UNDEF has no
pattern: its term is well-formed exactly when its encoded word is one of R98. -/
def Statement (i : Instr) : Prop :=
  match opcodeRows.find? (fun r => r.row == i.row) with
  | some r => encodeWord i &&& r.canonicalMask = r.canonicalBits
  | none => i.wellFormed = isUndefWord (encodeWord i)

theorem cls : Statement .cls := rfl

theorem ret : Statement .ret := rfl

theorem jp (nnn : Addr12) : Statement (.jp nnn) :=
  (mask_F000 _ 0x1#4).2 (fieldP_formatA _ nnn)

theorem call (nnn : Addr12) : Statement (.call nnn) :=
  (mask_F000 _ 0x2#4).2 (fieldP_formatA _ nnn)

theorem seByte (x : Reg) (kk : Byte) : Statement (.seByte x kk) :=
  (mask_F000 _ 0x3#4).2 (fieldP_formatXK _ x kk)

theorem sneByte (x : Reg) (kk : Byte) : Statement (.sneByte x kk) :=
  (mask_F000 _ 0x4#4).2 (fieldP_formatXK _ x kk)

theorem seReg (x y : Reg) : Statement (.seReg x y) :=
  (mask_F00F _ 0x5#4 0x0#4).2 ⟨fieldP_formatXYN _ x y _, selectorN_formatXYN _ x y _⟩

theorem sneReg (x y : Reg) : Statement (.sneReg x y) :=
  (mask_F00F _ 0x9#4 0x0#4).2 ⟨fieldP_formatXYN _ x y _, selectorN_formatXYN _ x y _⟩

theorem ldByte (x : Reg) (kk : Byte) : Statement (.ldByte x kk) :=
  (mask_F000 _ 0x6#4).2 (fieldP_formatXK _ x kk)

theorem addByte (x : Reg) (kk : Byte) : Statement (.addByte x kk) :=
  (mask_F000 _ 0x7#4).2 (fieldP_formatXK _ x kk)

theorem ldReg (x y : Reg) : Statement (.ldReg x y) :=
  (mask_F00F _ 0x8#4 0x0#4).2 ⟨fieldP_formatXYN _ x y _, selectorN_formatXYN _ x y _⟩

theorem orReg (x y : Reg) : Statement (.orReg x y) :=
  (mask_F00F _ 0x8#4 0x1#4).2 ⟨fieldP_formatXYN _ x y _, selectorN_formatXYN _ x y _⟩

theorem andReg (x y : Reg) : Statement (.andReg x y) :=
  (mask_F00F _ 0x8#4 0x2#4).2 ⟨fieldP_formatXYN _ x y _, selectorN_formatXYN _ x y _⟩

theorem xorReg (x y : Reg) : Statement (.xorReg x y) :=
  (mask_F00F _ 0x8#4 0x3#4).2 ⟨fieldP_formatXYN _ x y _, selectorN_formatXYN _ x y _⟩

theorem addReg (x y : Reg) : Statement (.addReg x y) :=
  (mask_F00F _ 0x8#4 0x4#4).2 ⟨fieldP_formatXYN _ x y _, selectorN_formatXYN _ x y _⟩

theorem subReg (x y : Reg) : Statement (.subReg x y) :=
  (mask_F00F _ 0x8#4 0x5#4).2 ⟨fieldP_formatXYN _ x y _, selectorN_formatXYN _ x y _⟩

theorem shr (x y : Reg) : Statement (.shr x y) :=
  (mask_F00F _ 0x8#4 0x6#4).2 ⟨fieldP_formatXYN _ x y _, selectorN_formatXYN _ x y _⟩

theorem subnReg (x y : Reg) : Statement (.subnReg x y) :=
  (mask_F00F _ 0x8#4 0x7#4).2 ⟨fieldP_formatXYN _ x y _, selectorN_formatXYN _ x y _⟩

theorem shl (x y : Reg) : Statement (.shl x y) :=
  (mask_F00F _ 0x8#4 0xE#4).2 ⟨fieldP_formatXYN _ x y _, selectorN_formatXYN _ x y _⟩

theorem ldI (nnn : Addr12) : Statement (.ldI nnn) :=
  (mask_F000 _ 0xA#4).2 (fieldP_formatA _ nnn)

theorem jpV0 (nnn : Addr12) : Statement (.jpV0 nnn) :=
  (mask_F000 _ 0xB#4).2 (fieldP_formatA _ nnn)

theorem rnd (x : Reg) (kk : Byte) : Statement (.rnd x kk) :=
  (mask_F000 _ 0xC#4).2 (fieldP_formatXK _ x kk)

theorem drw (x y : Reg) (n : Fin 16) : Statement (.drw x y n) :=
  (mask_F000 _ 0xD#4).2 (fieldP_formatXYN _ x y _)

theorem skp (x : Reg) : Statement (.skp x) :=
  (mask_F0FF _ 0xE#4 0x9E#8).2 ⟨fieldP_formatXK _ x _, fieldKK_formatXK _ x _⟩

theorem sknp (x : Reg) : Statement (.sknp x) :=
  (mask_F0FF _ 0xE#4 0xA1#8).2 ⟨fieldP_formatXK _ x _, fieldKK_formatXK _ x _⟩

theorem ldVxDt (x : Reg) : Statement (.ldVxDt x) :=
  (mask_F0FF _ 0xF#4 0x07#8).2 ⟨fieldP_formatXK _ x _, fieldKK_formatXK _ x _⟩

theorem ldDtVx (x : Reg) : Statement (.ldDtVx x) :=
  (mask_F0FF _ 0xF#4 0x15#8).2 ⟨fieldP_formatXK _ x _, fieldKK_formatXK _ x _⟩

theorem ldStVx (x : Reg) : Statement (.ldStVx x) :=
  (mask_F0FF _ 0xF#4 0x18#8).2 ⟨fieldP_formatXK _ x _, fieldKK_formatXK _ x _⟩

theorem ldVxK (x : Reg) : Statement (.ldVxK x) :=
  (mask_F0FF _ 0xF#4 0x0A#8).2 ⟨fieldP_formatXK _ x _, fieldKK_formatXK _ x _⟩

theorem addI (x : Reg) : Statement (.addI x) :=
  (mask_F0FF _ 0xF#4 0x1E#8).2 ⟨fieldP_formatXK _ x _, fieldKK_formatXK _ x _⟩

theorem ldF (x : Reg) : Statement (.ldF x) :=
  (mask_F0FF _ 0xF#4 0x29#8).2 ⟨fieldP_formatXK _ x _, fieldKK_formatXK _ x _⟩

theorem ldB (x : Reg) : Statement (.ldB x) :=
  (mask_F0FF _ 0xF#4 0x33#8).2 ⟨fieldP_formatXK _ x _, fieldKK_formatXK _ x _⟩

theorem storeRegs (x : Reg) : Statement (.storeRegs x) :=
  (mask_F0FF _ 0xF#4 0x55#8).2 ⟨fieldP_formatXK _ x _, fieldKK_formatXK _ x _⟩

theorem loadRegs (x : Reg) : Statement (.loadRegs x) :=
  (mask_F0FF _ 0xF#4 0x65#8).2 ⟨fieldP_formatXK _ x _, fieldKK_formatXK _ x _⟩

theorem undef (w : Word) : Statement (.undef w) := rfl

end Sys2Proof.Laws.MatchesRow
end

