-- ==== Sys2Proof/Laws/Transfer.lean ====
section
/-! SUPPORT. What the register transfers of Fx55 and Fx65 can do, said once. -/

namespace Sys2Proof.Machine

/-- Two access numbers below 4096 name the same cell only if they are equal. -/
theorem State.dataCell_inj (s : State) {j k : Nat} (hj : j < 4096) (hk : k < 4096)
    (h : s.dataCell j = s.dataCell k) : j = k := by
  simp only [State.dataCell, State.ea, Config.memSize] at h
  omega

/-- The stores of Fx55, in any state: the address check of every access is made, every cell that none of them names is
as before, the canonical form is kept, and no other field changes. -/
theorem State.storeAll_frame (s0 : State) (rs : List Reg) (s : State) :
    ∃ m, State.storeAll s0 rs s = { s with
        mem := m
        cur := ⟨s.cur.rnd, s.cur.err ||| if ∃ r ∈ rs, s0.ea r.val > 4095 then StepError.memoryOutOfRange.bit else 0#4⟩ } ∧
      (s.mem.wf → m.wf) ∧ (∀ a, (∀ r ∈ rs, a ≠ s0.dataCell r.val) → m.read a = s.mem.read a) := by
  induction rs generalizing s with
  | nil => exact ⟨s.mem, by simp [State.storeAll], id, by simp⟩
  | cons r rs ih =>
    obtain ⟨m, hm, hwf, hout⟩ := ih (s.memWrite (s0.ea r.val) (s0.getV r))
    have hmem : (s.memWrite (s0.ea r.val) (s0.getV r)).mem = s.mem.write (s0.dataCell r.val) (s0.getV r) := by
      rw [State.memWrite_eq]; rfl
    refine ⟨m, ?_, fun h => hwf (State.wf_memWrite s h _ _), ?_⟩
    · rw [State.storeAll, hm, State.memWrite_eq]
      simp only [List.exists_mem_cons_iff, BitVec.or_assoc]
      congr 3
      by_cases h1 : s0.ea r.val > 4095 <;> by_cases h2 : ∃ q ∈ rs, s0.ea q.val > 4095 <;> simp [h1, h2]
    · intro a ha
      rw [hout a fun q hq => ha q (List.mem_cons_of_mem _ hq), hmem,
        Memory.read_write_ne _ _ (ha r List.mem_cons_self)]

/-- The stores of Fx55, on canonical memory: each register of the list is in its own cell. -/
theorem State.storeAll_values (s0 : State) (rs : List Reg) (s : State) (hrs : rs.Nodup) (hwf : s.mem.wf) :
    ∀ r ∈ rs, (State.storeAll s0 rs s).mem.read (s0.dataCell r.val) = s0.getV r := by
  induction rs generalizing s with
  | nil => simp
  | cons r rs ih =>
    obtain ⟨hr, hrs⟩ := List.nodup_cons.1 hrs
    intro q hq
    rw [State.storeAll]
    rcases List.mem_cons.1 hq with rfl | hq
    · obtain ⟨m, hm, -, hout⟩ := State.storeAll_frame s0 rs (s.memWrite (s0.ea q.val) (s0.getV q))
      rw [hm]
      show m.read _ = _
      rw [hout _ fun p hp e => hr ?_, State.memWrite_eq]
      · exact Memory.read_write_same hwf _ _
      · exact Fin.ext (s0.dataCell_inj (by omega) (by omega) e) ▸ hp
    · exact ih (s.memWrite (s0.ea r.val) (s0.getV r)) hrs (State.wf_memWrite s hwf _ _) q hq

/-- The loads of Fx65: each register of the list is the byte of its cell, every other register is as before, the
address check of every access is made, and no other field changes. -/
theorem State.loadAll_spec (rs : List Reg) (s : State) (hrs : rs.Nodup) :
    ∃ v, State.loadAll rs s = { s with
        v := v
        cur := ⟨s.cur.rnd, s.cur.err ||| if ∃ r ∈ rs, s.ea r.val > 4095 then StepError.memoryOutOfRange.bit else 0#4⟩ } ∧
      (∀ r ∈ rs, v.get r = s.mem.read (s.dataCell r.val)) ∧ (∀ r, r ∉ rs → v.get r = s.getV r) := by
  induction rs generalizing s with
  | nil => exact ⟨s.v, by simp [State.loadAll], by simp, fun _ _ => rfl⟩
  | cons r rs ih =>
    obtain ⟨hr, hrs⟩ := List.nodup_cons.1 hrs
    obtain ⟨v, hv, hin, hout⟩ := ih ((s.checkAddr (s.ea r.val)).setV r (s.readByte (s.ea r.val))) hrs
    have hi : ∀ k, ((s.checkAddr (s.ea r.val)).setV r (s.readByte (s.ea r.val))).ea k = s.ea k := by
      intro k; rw [State.checkAddr_eq]; rfl
    have hm : ((s.checkAddr (s.ea r.val)).setV r (s.readByte (s.ea r.val))).mem = s.mem := by
      rw [State.checkAddr_eq]; rfl
    refine ⟨v, ?_, ?_, ?_⟩
    · rw [State.loadAll]
      simp only [State.memRead]
      rw [hv]
      simp only [hi]
      rw [State.checkAddr_eq]
      simp only [State.setV, List.exists_mem_cons_iff, BitVec.or_assoc]
      congr 3
      by_cases h1 : s.ea r.val > 4095 <;> by_cases h2 : ∃ q ∈ rs, s.ea q.val > 4095 <;> simp [h1, h2]
    · intro q hq
      rcases List.mem_cons.1 hq with rfl | hq
      · rw [hout q hr, State.getV_setV_same]; rfl
      · rw [hin q hq, hm, State.dataCell, hi]; rfl
    · intro q hq
      have hqr : q ≠ r := fun e => hq (by rw [e]; exact List.mem_cons_self)
      rw [hout q fun h => hq (List.mem_cons_of_mem _ h),
        State.getV_setV_ne _ _ hqr, State.checkAddr_eq]
      rfl

end Sys2Proof.Machine
end

