-- ==== Sys2Proof/Tests/Slice0.lean ====
section
/-! SUPPORT. Tests. Every expected value is taken from spec/: the encodings of 30_encoding.md R92 to R98 and the vectors of
95_test_vectors.md, whose names stand beside them. -/

set_option maxRecDepth 8000

namespace Sys2Proof.Tests

open Sys2Proof Sys2Proof.Machine

/-! ### Helpers -/

/-- What a function sees of a next state; none of a fault or a refusal. -/
def after {σ α : Type} (o : Host.Outcome σ Fault Refusal) (f : σ → α) : Option α :=
  match o with
  | .next t => some (f t)
  | _ => none

/-- One Step with the word at PC, what a function sees of the state after it. -/
def run {α : Type} (s : State) (w : Word) (f : State → α) : Option α :=
  after (stepWith 0#8 (s.placeFetchWord w)) fun p => f p.1

/-- Registers set. -/
def regs (s : State) (l : List (Reg × Byte)) : State := l.foldl (fun t p => t.setV p.1 p.2) s

/-- Bytes of memory set. -/
def bytes (s : State) (l : List (Nat × Byte)) : State :=
  { s with mem := l.foldl (fun m p => m.write p.1 p.2) s.mem }

/-- Framebuffer cells set. -/
def cells (s : State) (l : List (Nat × Nat)) : State :=
  { s with fb := l.foldl (fun fb p => Framebuffer.toggle fb p.1 p.2) s.fb }

/-- The set cells of some rows, read back as a list. -/
def shown (s : State) (rows cols : List Nat) : List (Nat × Nat) :=
  rows.flatMap fun cy => (cols.filter fun cx => s.cell cx cy).map fun cx => (cx, cy)

/-! ### Well-formedness: an UNDEF term whose word a handler owns is refused -/

theorem test_wellFormed_refuses_cls_word : (Instr.undef 0x00E0#16).wellFormed = false := by decide

theorem test_wellFormed_refuses_zero_word : (Instr.undef 0x0000#16).wellFormed = false := by decide

theorem test_wellFormed_refuses_group8_word : (Instr.undef 0x8AB4#16).wellFormed = false := by decide

theorem test_wellFormed_refuses_groupE_word : (Instr.undef 0xE1FE#16).wellFormed = false := by decide

theorem test_wellFormed_refuses_groupF_word : (Instr.undef 0xF365#16).wellFormed = false := by decide

theorem test_wellFormed_refuses_ungrouped_word : (Instr.undef 0x1234#16).wellFormed = false := by decide

theorem test_wellFormed_admits_undef_word : (Instr.undef 0x8008#16).wellFormed = true := by decide

/-! ### Decoding: a word written out from the pattern of each row -/

theorem test_decode_formatZ :
    decodeWord 0x00E0#16 = .cls ∧ decodeWord 0x00EE#16 = .ret := by decide

theorem test_decode_formatA :
    decodeWord 0x1ABC#16 = .jp 0xABC#12 ∧ decodeWord 0x2300#16 = .call 0x300#12 ∧
    decodeWord 0xA500#16 = .ldI 0x500#12 ∧ decodeWord 0xB30F#16 = .jpV0 0x30F#12 := by decide

theorem test_decode_formatXK :
    decodeWord 0x3A2B#16 = .seByte 10 0x2B#8 ∧ decodeWord 0x4A2B#16 = .sneByte 10 0x2B#8 ∧
    decodeWord 0x6005#16 = .ldByte 0 0x05#8 ∧ decodeWord 0x7FFE#16 = .addByte 15 0xFE#8 ∧
    decodeWord 0xC30F#16 = .rnd 3 0x0F#8 := by decide

theorem test_decode_formatXY :
    decodeWord 0x5120#16 = .seReg 1 2 ∧ decodeWord 0x9120#16 = .sneReg 1 2 ∧
    decodeWord 0x8120#16 = .ldReg 1 2 ∧ decodeWord 0x8121#16 = .orReg 1 2 ∧
    decodeWord 0x8122#16 = .andReg 1 2 ∧ decodeWord 0x8123#16 = .xorReg 1 2 ∧
    decodeWord 0x8124#16 = .addReg 1 2 ∧ decodeWord 0x8125#16 = .subReg 1 2 ∧
    decodeWord 0x8126#16 = .shr 1 2 ∧ decodeWord 0x8127#16 = .subnReg 1 2 ∧
    decodeWord 0x812E#16 = .shl 1 2 := by decide

theorem test_decode_formatXYN : decodeWord 0xD125#16 = .drw 1 2 5 := by decide

theorem test_decode_formatXS_keypad_timers :
    decodeWord 0xE29E#16 = .skp 2 ∧ decodeWord 0xE2A1#16 = .sknp 2 ∧ decodeWord 0xF207#16 = .ldVxDt 2 ∧
    decodeWord 0xF215#16 = .ldDtVx 2 ∧ decodeWord 0xF218#16 = .ldStVx 2 ∧ decodeWord 0xF20A#16 = .ldVxK 2 := by decide

theorem test_decode_formatXS_index :
    decodeWord 0xF21E#16 = .addI 2 ∧ decodeWord 0xF229#16 = .ldF 2 ∧ decodeWord 0xF233#16 = .ldB 2 ∧
    decodeWord 0xF255#16 = .storeRegs 2 ∧ decodeWord 0xF265#16 = .loadRegs 2 := by decide

/-- V-STEP4: each of these words is UNDEF. -/
theorem test_decode_undef_groups_0_8_E :
    decodeWord 0x00E1#16 = .undef 0x00E1#16 ∧ decodeWord 0x00EF#16 = .undef 0x00EF#16 ∧
    decodeWord 0x812F#16 = .undef 0x812F#16 ∧ decodeWord 0xE09F#16 = .undef 0xE09F#16 ∧
    decodeWord 0xE000#16 = .undef 0xE000#16 := by decide

/-- V-STEP4. -/
theorem test_decode_undef_group_F :
    decodeWord 0xF000#16 = .undef 0xF000#16 ∧ decodeWord 0xF0FF#16 = .undef 0xF0FF#16 ∧
    decodeWord 0xF075#16 = .undef 0xF075#16 ∧ decodeWord 0xFF1F#16 = .undef 0xFF1F#16 := by decide

/-- V-STEP2, V-STEP5 to V-STEP9: aliases. -/
theorem test_decode_aliases :
    decodeWord 0x0000#16 = .cls ∧ decodeWord 0x512F#16 = .seReg 1 2 ∧ decodeWord 0x9127#16 = .sneReg 1 2 ∧
    decodeWord 0xE131#16 = .sknp 1 ∧ decodeWord 0xE1FE#16 = .skp 1 ∧ decodeWord 0x0ABE#16 = .ret := by decide

theorem test_decode_truncated : (decode [0x60#8]).toOption = none := by decide

theorem test_decode_leaves_rest : (decode [0x60#8, 0x05#8, 0x61#8]).toOption = some (.ldByte 0 0x05#8, [0x61#8]) := by decide

/-- Big-endian (R62): the byte at the lower address is bits 15:8. -/
theorem test_encode_bytes : encode (.call 0x300#12) = [0x23#8, 0x00#8] := by decide

theorem test_decodeTableWord : decodeTableWord 16 0xD125 = some (.drw 1 2 5) ∧ decodeTableWord 16 0x0000 = some .cls := by
  decide

/-- R96: "The 34 rows are pairwise disjoint": two rows disagree on a bit that both masks examine. -/
theorem test_opcode_rows_disjoint :
    opcodeRows.length = 34 ∧
      opcodeRows.Pairwise (fun r q => (r.bits ^^^ q.bits) &&& r.mask &&& q.mask ≠ 0#16) := by decide

/-! ### The Step frame (2.1) -/

/-- V-STEP1, the report with it. -/
theorem test_step_undef : run { State.reset with dt := 3#8 } 0x8008#16 (fun t => (t.pc, t.dt, t.err)) =
    some (0x0202#16, 2#8, 0b00001#5) ∧
    after (stepWith 0#8 (State.reset.placeFetchWord 0x8008#16)) (·.2) = some ⟨0b0001#4, 0x0200#16, 0x8008#16⟩ := by decide

/-- V-STEP3: 0x0123 is UNDEF and leaves the framebuffer. -/
theorem test_step_undef_0123 : run (cells State.reset [(3, 3)]) 0x0123#16 (fun t => (t.pc, t.cell 3 3)) =
    some (0x0202#16, true) := by decide

/-- V-STEP11: PC = 0x0FFF, the second byte from cell 0. -/
theorem test_step_fetch_wraps :
    after (stepWith 0#8 { (bytes State.reset [(0xFFF, 0x61#8), (0, 0x05#8)]) with pc := 0x0FFF#16 })
      (fun p => (p.1.getV 1, p.1.pc, p.2.stepErr)) = some (0x05#8, 0x1001#16, 0b1000#4) := by decide

/-- V-STEP14: addresses 65535 and 65536. -/
theorem test_step_fetch_top :
    after (stepWith 0#8 { (bytes State.reset [(0xFFF, 0x61#8), (0, 0x09#8)]) with pc := 0xFFFF#16 })
      (fun p => (p.1.getV 1, p.1.pc, p.2.stepErr)) = some (0x09#8, 0x0001#16, 0b1000#4) := by decide

/-- V-STEP15: an odd PC is legal. -/
theorem test_step_odd_pc :
    run { State.reset with pc := 0x0201#16 } 0x6109#16 (fun t => (t.getV 1, t.pc, t.err)) =
      some (0x09#8, 0x0203#16, 0#5) := by decide

/-- R294: the zero word that an unloaded cell pair reads as runs as 00E0 after reset. -/
theorem test_step_from_reset : after (step State.reset) (fun t => (t.pc, t.err, t.draws)) = some (0x0202#16, 0#5, 1) := by
  decide

/-- `withFetchWord` makes the next step run the word. -/
theorem test_step_withFetchWord :
    after (step (State.reset.withFetchWord 16 0x6005)) (fun t => (t.getV 0, t.pc)) = some (0x05#8, 0x0202#16) := by decide

/-! ### Control transfer (2.2) -/

/-- V-CTL1. -/
theorem test_ret : run { State.reset with pc := 0x0300#16, sp := 1, stack := State.reset.stack.set 0 0x0202#16 } 0x00EE#16
    (fun t => (t.pc, t.sp)) = some (0x0202#16, 0) := by decide

/-- V-CTL2. -/
theorem test_ret_underflow : run { State.reset with pc := 0x0300#16 } 0x00EE#16 (fun t => (t.pc, t.sp, t.err)) =
    some (0x0302#16, 0, 0b00100#5) := by decide

/-- V-CTL4. -/
theorem test_jp : run State.reset 0x1FFF#16 (·.pc) = some 0x0FFF#16 := by decide

/-- V-CTL6. -/
theorem test_call_last_slot : run { State.reset with pc := 0x04AC#16, sp := 15 } 0x2300#16
    (fun t => (t.slot 15, t.sp, t.pc)) = some (0x04AE#16, 16, 0x0300#16) := by decide

/-- V-CTL7. -/
theorem test_call_overflow :
    run { State.reset with pc := 0x04AC#16, sp := 16, stack := State.reset.stack.set 15 0x0BBB#16 } 0x2300#16
      (fun t => (t.slot 15, t.sp, t.pc, t.err)) = some (0x0BBB#16, 16, 0x04AE#16, 0b00010#5) := by decide

/-- V-CTL8. -/
theorem test_seByte : run State.reset 0x3A00#16 (·.pc) = some 0x0204#16 ∧
    run State.reset 0x3A01#16 (·.pc) = some 0x0202#16 := by decide

/-- V-CTL9. -/
theorem test_sneByte : run State.reset 0x4A00#16 (·.pc) = some 0x0202#16 ∧
    run State.reset 0x4A01#16 (·.pc) = some 0x0204#16 := by decide

/-- V-CTL11, V-CTL12. -/
theorem test_seReg : run (regs State.reset [(1, 9#8), (2, 9#8)]) 0x5120#16 (·.pc) = some 0x0204#16 ∧
    run (regs State.reset [(1, 9#8), (2, 8#8)]) 0x5120#16 (·.pc) = some 0x0202#16 := by decide

/-- V-CTL11, V-CTL12. -/
theorem test_sneReg : run (regs State.reset [(1, 9#8), (2, 9#8)]) 0x9120#16 (·.pc) = some 0x0202#16 ∧
    run (regs State.reset [(1, 9#8), (2, 8#8)]) 0x9120#16 (·.pc) = some 0x0204#16 := by decide

/-- V-CTL15: V3 is not used. -/
theorem test_jpV0 : run (regs State.reset [(0, 0xFF#8), (3, 0x11#8)]) 0xB300#16 (·.pc) = some 0x03FF#16 := by decide

/-- V-CTL16: the sum is not reduced, and this Step reports nothing. -/
theorem test_jpV0_above : run (regs State.reset [(0, 0xFF#8)]) 0xBFFF#16 (fun t => (t.pc, t.err)) =
    some (0x10FE#16, 0#5) := by decide

/-! ### Registers, arithmetic, logic, shifts, random (2.3) -/

/-- V-ALU2. -/
theorem test_ldByte : run (regs State.reset [(15, 1#8)]) 0x6F00#16 (·.getV 15) = some 0#8 := by decide

/-- V-ALU3. -/
theorem test_addByte : run (regs State.reset [(1, 0xFF#8), (15, 0x33#8)]) 0x7101#16 (fun t => (t.getV 1, t.getV 15)) =
    some (0#8, 0x33#8) := by decide

/-- V-ALU6. -/
theorem test_ldReg : run (regs State.reset [(2, 0x9C#8)]) 0x8120#16 (fun t => (t.getV 1, t.getV 2)) =
    some (0x9C#8, 0x9C#8) := by decide

/-- V-ALU7. -/
theorem test_orReg : run (regs State.reset [(1, 0x55#8), (2, 0xAA#8), (15, 1#8)]) 0x8121#16
    (fun t => (t.getV 1, t.getV 15)) = some (0xFF#8, 1#8) := by decide

/-- V-ALU8. -/
theorem test_andReg : run (regs State.reset [(1, 0x55#8), (2, 0xAA#8), (15, 1#8)]) 0x8122#16
    (fun t => (t.getV 1, t.getV 15)) = some (0#8, 1#8) := by decide

/-- V-ALU9. -/
theorem test_xorReg : run (regs State.reset [(1, 0x55#8), (2, 0xFF#8), (15, 1#8)]) 0x8123#16
    (fun t => (t.getV 1, t.getV 15)) = some (0xAA#8, 1#8) := by decide

/-- V-ALU13: a sum of 255 is no carry. -/
theorem test_addReg : run (regs State.reset [(1, 0x7F#8), (2, 0x80#8)]) 0x8124#16 (fun t => (t.getV 1, t.getV 15)) =
    some (0xFF#8, 0#8) := by decide

/-- V-ALU16: x = 0xF, the sum wins. -/
theorem test_addReg_vf : run (regs State.reset [(15, 0xFF#8), (1, 2#8)]) 0x8F14#16 (·.getV 15) = some 1#8 := by decide

/-- V-ALU19: equal operands, strict comparison. -/
theorem test_subReg : run (regs State.reset [(1, 0x20#8), (2, 0x20#8)]) 0x8125#16 (fun t => (t.getV 1, t.getV 15)) =
    some (0#8, 0#8) := by decide

/-- V-ALU25: y = 0xF, the old VF is subtracted. -/
theorem test_subReg_vf : run (regs State.reset [(1, 5#8), (15, 3#8)]) 0x81F5#16 (fun t => (t.getV 1, t.getV 15)) =
    some (2#8, 1#8) := by decide

/-- V-ALU27: Vx is shifted in place, Vy untouched. -/
theorem test_shr : run (regs State.reset [(1, 0xFF#8), (2, 0x55#8)]) 0x8126#16
    (fun t => (t.getV 1, t.getV 15, t.getV 2)) = some (0x7F#8, 1#8, 0x55#8) := by decide

/-- V-ALU29. -/
theorem test_shr_vf : run (regs State.reset [(15, 7#8)]) 0x8F16#16 (·.getV 15) = some 3#8 := by decide

/-- V-ALU31. -/
theorem test_subnReg : run (regs State.reset [(1, 0x21#8), (2, 0x20#8)]) 0x8127#16 (fun t => (t.getV 1, t.getV 15)) =
    some (0xFF#8, 0#8) := by decide

/-- V-ALU33. -/
theorem test_subnReg_vf : run (regs State.reset [(15, 3#8), (1, 5#8)]) 0x8F17#16 (·.getV 15) = some 2#8 := by decide

/-- V-ALU35. -/
theorem test_shl : run (regs State.reset [(1, 0xFF#8), (2, 0x55#8)]) 0x812E#16
    (fun t => (t.getV 1, t.getV 15, t.getV 2)) = some (0xFE#8, 1#8, 0x55#8) := by decide

/-- V-ALU37. -/
theorem test_shl_vf : run (regs State.reset [(15, 0xC1#8)]) 0x8F1E#16 (·.getV 15) = some 0x82#8 := by decide

/-- V-ALU38. -/
theorem test_rnd : after (stepWith 0xA7#8 (State.reset.placeFetchWord 0xC30F#16)) (·.1.getV 3) = some 0x07#8 := by decide

/-! ### Index register and memory (2.4) -/

/-- V-MEM1. -/
theorem test_ldI : run { State.reset with i := 0xFFFF#16 } 0xA000#16 (·.i) = some 0#16 := by decide

/-- V-MEM4. -/
theorem test_addI : run (regs { State.reset with i := 0xFFFF#16 } [(2, 1#8), (15, 7#8)]) 0xF21E#16
    (fun t => (t.i, t.getV 15, t.err)) = some (0#16, 7#8, 0#5) := by decide

/-- V-MEM6, V-MEM7. -/
theorem test_ldF : run (regs State.reset [(4, 0x0F#8)]) 0xF429#16 (·.i) = some 0x009B#16 ∧
    run (regs State.reset [(4, 0xFF#8)]) 0xF429#16 (·.i) = some 0x054B#16 := by decide

/-- V-MEM8, the row 128. -/
theorem test_ldB : run (regs { State.reset with i := 0x0400#16 } [(3, 128#8)]) 0xF333#16
    (fun t => (t.mem.read 0x400, t.mem.read 0x401, t.mem.read 0x402, t.i)) = some (1#8, 2#8, 8#8, 0x0400#16) := by decide

/-- V-MEM10. -/
theorem test_ldB_wraps : run (regs { State.reset with i := 0x0FFE#16 } [(3, 0xEA#8)]) 0xF333#16
    (fun t => (t.mem.read 0xFFE, t.mem.read 0xFFF, t.mem.read 0x000, t.err)) = some (2#8, 3#8, 4#8, 0b01000#5) := by decide

/-- V-MEM12, the first, the last and the next cell. -/
theorem test_storeRegs :
    run (regs { State.reset with i := 0x0300#16 } [(0, 0x10#8), (1, 0x11#8), (2, 0x12#8), (3, 0x13#8), (4, 0x14#8)]) 0xF355#16
      (fun t => (t.mem.read 0x300, t.mem.read 0x303, t.mem.read 0x304, t.i)) =
      some (0x10#8, 0x13#8, 0#8, 0x0300#16) := by decide

/-- V-MEM13. -/
theorem test_loadRegs :
    run (regs (bytes { State.reset with i := 0x0300#16 } [(0x300, 0xA0#8), (0x301, 0xA1#8), (0x302, 0xA2#8), (0x303, 0xA3#8)])
      [(4, 0x44#8)]) 0xF365#16
      (fun t => (t.getV 0, t.getV 3, t.getV 4, t.i)) = some (0xA0#8, 0xA3#8, 0x44#8, 0x0300#16) := by decide

/-- V-MEM16. -/
theorem test_loadRegs_wraps : run (bytes { State.reset with i := 0x1005#16 } [(5, 0x77#8), (6, 0x88#8)]) 0xF165#16
    (fun t => (t.getV 0, t.getV 1, t.err)) = some (0x77#8, 0x88#8, 0b01000#5) := by decide

/-! ### Display (2.5) -/

/-- V-DRW1, on two cells. -/
theorem test_cls : run (regs (cells State.reset [(0, 0), (63, 31)]) [(15, 1#8)]) 0x00E0#16
    (fun t => (shown t (List.range 32) (List.range 64), t.getV 15)) = some ([], 1#8) := by decide

/-- V-DRW4. -/
theorem test_drw_collision :
    run (regs (bytes (cells { State.reset with i := 0x0300#16 } [(10, 10), (14, 10)]) [(0x300, 0xF0#8)]) [(1, 10#8), (2, 10#8)])
      0xD121#16 (fun t => (shown t [9, 10, 11] (List.range 64), t.getV 15)) =
      some ([(11, 10), (12, 10), (13, 10), (14, 10)], 1#8) := by decide

/-- V-DRW8: clipped at the right and the bottom edge. -/
theorem test_drw_clips :
    run (regs (bytes { State.reset with i := 0x0300#16 } [(0x300, 0xFF#8), (0x301, 0xFF#8)]) [(1, 255#8), (2, 255#8)])
      0xD122#16 (fun t => (shown t [0, 30, 31] (List.range 64), t.getV 15)) = some ([(63, 31)], 0#8) := by decide

/-! ### Keypad and timers (2.6) -/

/-- V-KEY3, V-KEY2. -/
theorem test_skp : run (regs (State.reset.setKey 10 true) [(0, 0x1A#8)]) 0xE09E#16 (·.pc) = some 0x0204#16 ∧
    run (regs State.reset [(0, 5#8)]) 0xE09E#16 (·.pc) = some 0x0202#16 := by decide

/-- V-KEY3, V-KEY2. -/
theorem test_sknp : run (regs (State.reset.setKey 10 true) [(0, 0x1A#8)]) 0xE0A1#16 (·.pc) = some 0x0202#16 ∧
    run (regs State.reset [(0, 5#8)]) 0xE0A1#16 (·.pc) = some 0x0204#16 := by decide

/-- V-KEY4. -/
theorem test_ldVxDt : run { State.reset with dt := 1#8 } 0xF207#16 (fun t => (t.getV 2, t.dt)) = some (1#8, 0#8) := by decide

/-- V-KEY6. -/
theorem test_ldDtVx : run (regs State.reset [(0, 10#8)]) 0xF015#16 (·.dt) = some 9#8 ∧
    run State.reset 0xF015#16 (·.dt) = some 0#8 := by decide

/-- V-KEY7. -/
theorem test_ldStVx : run (regs { State.reset with dt := 3#8 } [(0, 255#8)]) 0xF018#16 (fun t => (t.st, t.dt)) =
    some (254#8, 2#8) := by decide

/-- V-KEY8. -/
theorem test_ldVxK_waits : run (regs { State.reset with st := 1#8 } [(3, 9#8)]) 0xF30A#16
    (fun t => (t.pc, t.getV 3, t.st, t.err)) = some (0x0200#16, 9#8, 0#8, 0#5) := by decide

/-- V-KEY11. -/
theorem test_ldVxK_lowest : run ((State.reset.setKey 7 true).setKey 3 true) 0xF10A#16 (fun t => (t.pc, t.getV 1)) =
    some (0x0202#16, 3#8) := by decide

/-! ### Host operations (2.7) -/

/-- V-HOST1 with the default font: FONT[0] = F0, FONT[79] = 80, and the cells beside it. -/
theorem test_reset_memory : State.reset.mem.read 0x050 = 0xF0#8 ∧ State.reset.mem.read 0x09F = 0x80#8 ∧
    State.reset.mem.read 0x04F = 0#8 ∧ State.reset.mem.read 0x0A0 = 0#8 ∧ State.reset.pc = 0x0200#16 := by decide

/-- V-HOST1 with another font, from a state with a changed cell and an error recorded. -/
theorem test_host_reset :
    after (hostMove 0 (.reset (Vector.replicate 80 0x3C#8)) { (bytes State.reset [(0x300, 7#8)]) with err := 1#5 })
      (fun p => (p.1.mem.read 0x050, p.1.mem.read 0x09F, p.1.mem.read 0x0A0, p.1.mem.read 0x300, p.1.err)) =
      some (0x3C#8, 0x3C#8, 0#8, 0#8, 0#5) := by decide

/-- V-HOST5: the tail of an earlier image stays. -/
theorem test_host_loadRom :
    after (hostMove 0 (.loadRom [1#8, 2#8]) (bytes State.reset [(0x200, 9#8), (0x202, 8#8)]))
      (fun p => (p.1.mem.read 0x200, p.1.mem.read 0x201, p.1.mem.read 0x202, p.1.pc)) =
      some (1#8, 2#8, 8#8, 0x0200#16) := by decide

/-- V-HOST6. -/
theorem test_host_setKey : after (hostMove 0 (.setKey 7 true) State.reset) (fun p => (p.1.keyDown 7, p.1.keyDown 6)) =
    some (true, false) := by decide

/-! ### Hypotheses met: for each statement that has hypotheses, states and operands that meet all of them together -/

/-- A state with the word at PC. -/
def fetching (w : Word) : State := State.reset.placeFetchWord w

/-- AliasesDecodeAsTheirCanonicalWord, and a row for DecoderMatchesOpcodeMap. -/
theorem witness_Aliases : ∃ w : Word, ∃ r ∈ opcodeRows, r.selects w = true ∧ w &&& r.canonicalMask ≠ r.canonicalBits :=
  ⟨0x512F#16, ⟨7, 0xF000#16, 0x5000#16, 0xF00F#16, 0x5000#16⟩, by decide, by decide, by decide⟩

/-- DecodeOfEncodeIsIdentity. -/
theorem witness_DecodeOfEncode : (Instr.drw 15 0 15).wellFormed = true ∧ (Instr.undef 0x0FFF#16).wellFormed = true := by decide

/-- DecodedInstructionsAreWellFormed. -/
theorem witness_DecodedInstructions : decode [0x80#8, 0x08#8, 0x12#8] = .ok (.undef 0x8008#16, [0x12#8]) := rfl

/-- StepRunsTheDecodedInstruction. -/
theorem witness_StepRuns : ∃ t,
    decode [(fetching 0x6005#16).readByte (fetching 0x6005#16).pc.toNat,
      (fetching 0x6005#16).readByte ((fetching 0x6005#16).pc.toNat + 1)] = .ok (.ldByte 0 0x05#8, []) ∧
    exec (.ldByte 0 0x05#8) ((fetching 0x6005#16).draw.beginStep (Config.rnd (fetching 0x6005#16).draws)) = .next t :=
  ⟨_, rfl, rfl⟩

/-- ErrorKindsCombineOnlyWithTheFetch, both clauses, the second at the combination 1010. -/
theorem witness_ErrorKinds :
    (∃ t, exec (.undef 0x8008#16) State.reset = .next t) ∧
    after (stepWith 0#8 ({ State.reset with pc := 0x1000#16, sp := 16 }.placeFetchWord 0x2300#16)) (·.2.stepErr) =
      some 0b1010#4 := ⟨⟨_, rfl⟩, by decide⟩

/-- EveryStepKeepsTheInvariant: a step that stores. -/
theorem witness_StepInv : (fetching 0xF055#16).Inv ∧ ∃ t, step (fetching 0xF055#16) = .next t :=
  ⟨⟨by decide, by decide⟩, _, rfl⟩

/-- EveryHostMoveKeepsTheInvariant. -/
theorem witness_HostInv : State.reset.Inv ∧ ∃ p, hostMove 1 (.loadRom [1#8]) State.reset = .next p :=
  ⟨⟨by decide, by decide⟩, _, rfl⟩

/-- HandlersWriteOnlyTheirColumns, with each form that addresses what it writes. -/
theorem witness_HandlersWrite :
    ∀ i ∈ [Instr.call 0x300#12, .ret, .ldB 1, .storeRegs 15, .drw 1 2 5], ∃ t, exec i State.reset = .next t := by
  simp only [List.forall_mem_cons]
  exact ⟨⟨_, rfl⟩, ⟨_, rfl⟩, ⟨_, rfl⟩, ⟨_, rfl⟩, ⟨_, rfl⟩, nofun⟩

/-- HandlersWriteOnlyTheirColumns says of one slot and three cells that they may change: the slot and the cells beside them
may not. -/
theorem witness_HandlersWrite_edges :
    let s : State := { State.reset with i := 0x0FFE#16 }
    handlerWrites s (.call 0x300#12) (.stack 0) ∧ ¬ handlerWrites s (.call 0x300#12) (.stack 1) ∧
      handlerWrites s (.ldB 1) (.mem 0) ∧ ¬ handlerWrites s (.ldB 1) (.mem 1) ∧ ¬ handlerWrites s .ret (.stack 0) := by
  refine ⟨.inr (.inr (.inl ⟨0, rfl, rfl⟩)), ?_, .inl ⟨0, ⟨2, by decide, by decide⟩, rfl⟩, ?_, ?_⟩
  · rintro (h | h | ⟨k, hk, h⟩ | h)
    iterate 2 cases h
    · cases h; exact absurd hk (by decide)
    · cases h
  · rintro (⟨a, ⟨k, hk, ha⟩, h⟩ | h)
    · cases h; revert k; decide
    · cases h
  · rintro (h | h | h) <;> cases h

/-- HandlersReadOnlyTheirColumns: two states that differ in a register that the handler does not read. -/
theorem witness_HandlersRead : ∃ s s' t t' : State, s.mem.wf ∧ s'.mem.wf ∧
    (∀ c, handlerReads (.ldReg 1 2) c → Same s s' c) ∧ exec (.ldReg 1 2) s = .next t ∧ exec (.ldReg 1 2) s' = .next t' ∧
    s.getV 1 ≠ s'.getV 1 := by
  refine ⟨State.reset, State.reset.setV 1 7#8, _, _, by decide, by decide, ?_, rfl, rfl, by decide⟩
  rintro c rfl
  show State.reset.getV 2 = (State.reset.setV 1 7#8).getV 2
  decide

/-- SelfJumpOnlyRunsTheTimersDown, at the last address, both clauses. -/
theorem witness_SelfJump : ∃ (s : State) (a : Addr12), a.toNat = 0xFFE ∧ s.pc = a.zext ∧ s.opcode = 0x1000#16 + a.zext ∧
    s.cur = StepLocal.idle ∧ s.dt = 0#8 ∧ s.st = 0#8 :=
  ⟨{ State.reset with pc := 0x0FFE#16 }.placeFetchWord 0x1FFE#16, 0xFFE#12, by decide⟩

/-- StoreIsSeenByTheNextFetch (V-STEP16). -/
theorem witness_StoreIsSeen : ∃ s : State, s.mem.wf ∧ decodeWord s.opcode = .storeRegs 1 ∧ s.i = s.pc + 2#16 :=
  ⟨{ fetching 0xF155#16 with i := 0x0202#16 }, by decide⟩

/-- MemoryWrapsAndReports, BcdStoresThreeDigits, RegisterStoreWritesConsecutiveCells, LoadRomCopiesOrRejects and
FetchWordIsPlacedWhereStepFetches: memory in canonical form, here with a cell listed. -/
theorem witness_MemoryWf : (fetching 0x6005#16).mem.wf ∧ (fetching 0x6005#16).mem ≠ [] := by decide

/-- MemoryWrapsAndReports: both sides of the last address. -/
theorem witness_MemoryEdge : (State.reset.memWrite 4095 1#8).cur.err = 0b0000#4 ∧
    (State.reset.memWrite 4096 1#8).cur.err = 0b1000#4 ∧ (State.reset.memRead 4095).2.cur.err = 0b0000#4 ∧
    (State.reset.memRead 4096).2.cur.err = 0b1000#4 := by decide

/-- FetchReadsBigEndianAndAdvances: both sides of the last fetch address (V-STEP10, V-STEP11). -/
theorem witness_FetchEdge : ({ State.reset with pc := 0x0FFE#16 }.beginStep 0#8).cur.err = 0b0000#4 ∧
    ({ State.reset with pc := 0x0FFF#16 }.beginStep 0#8).cur.err = 0b1000#4 := by decide

/-- BcdStoresThreeDigits, RegisterStoreWritesConsecutiveCells and RegisterLoadReadsConsecutiveCells: the last access at 4095 and
at 4096 (V-MEM9, V-MEM10, V-MEM14, V-MEM15). -/
theorem witness_TransferEdge :
    run { State.reset with i := 0x0FFD#16 } 0xF333#16 (·.err) = some 0b00000#5 ∧
    run { State.reset with i := 0x0FFE#16 } 0xF333#16 (·.err) = some 0b01000#5 ∧
    run { State.reset with i := 0x0FFF#16 } 0xF055#16 (·.err) = some 0b00000#5 ∧
    run { State.reset with i := 0x0FFF#16 } 0xF155#16 (·.err) = some 0b01000#5 ∧
    run { State.reset with i := 0x0FFF#16 } 0xF065#16 (·.err) = some 0b00000#5 ∧
    run { State.reset with i := 0x0FFF#16 } 0xF165#16 (·.err) = some 0b01000#5 := by decide

/-- SpriteDrawIsPointwiseXor: a row above 4095 that is read, and one that is clipped (V-DRW11, V-DRW12). -/
theorem witness_DrawEdge :
    run { State.reset with i := 0x0FFF#16 } 0xD122#16 (·.err) = some 0b01000#5 ∧
    run (regs { State.reset with i := 0x0FFF#16 } [(2, 31#8)]) 0xD122#16 (·.err) = some 0b00000#5 := by decide

/-- ReturnPopsOrReportsUnderflow: SP = 1, 16 and 0. -/
theorem witness_Return : (∃ s : State, s.sp.val = (0 : Fin 16).val + 1) ∧ (∃ s : State, s.sp.val = (15 : Fin 16).val + 1) ∧
    ∃ s : State, s.sp.val = 0 :=
  ⟨⟨{ State.reset with sp := 1 }, rfl⟩, ⟨{ State.reset with sp := 16 }, rfl⟩, State.reset, rfl⟩

/-- CallPushesOrReportsOverflow: SP = 0, 15 and 16. -/
theorem witness_Call : (∃ s : State, s.sp.val = (0 : Fin 16).val) ∧ (∃ s : State, s.sp.val = (15 : Fin 16).val) ∧
    ∃ s : State, s.sp.val = 16 :=
  ⟨⟨State.reset, rfl⟩, ⟨{ State.reset with sp := 15 }, rfl⟩, { State.reset with sp := 16 }, rfl⟩

/-- CallThenReturnComesBack, at SP = 15. -/
theorem witness_CallThenReturn : ∃ s t u : State, s.sp.val < 16 ∧ exec (.call 0x300#12) s = .next t ∧ u.stack = t.stack ∧
    u.sp = t.sp ∧ u.pc ≠ t.pc :=
  ⟨{ State.reset with sp := 15 }, _, { State.reset with sp := 16, stack := State.reset.stack.set 15 0x0200#16, pc := 0x0302#16 },
    by decide, rfl, by decide, by decide, by decide⟩

/-- AddRegSetsCarry, SubtractionsCompareStrictly and ShiftsMoveVxByOneBit: a destination that is not VF. -/
theorem witness_FlagClause : (1 : Reg) ≠ VF := by decide

/-- RandomByteIsMasked: a Step that executes Cxkk, and one that does not. -/
theorem witness_Random : decodeWord (fetching 0xC30F#16).opcode = .rnd 3 0x0F#8 ∧
    ∀ x kk, decodeWord (fetching 0x6105#16).opcode ≠ .rnd x kk := by
  refine ⟨by decide, fun x kk h => ?_⟩
  rw [show decodeWord (fetching 0x6105#16).opcode = .ldByte 1 0x05#8 by decide] at h
  cases h

/-- RegisterLoadReadsConsecutiveCells, second clause, with a store that wraps. -/
theorem witness_RegisterLoad : ∃ s t u : State, s.mem.wf ∧ exec (.storeRegs 15) s = .next t ∧ u.mem = t.mem ∧ u.i = s.i ∧
    s.i = 0x0FFF#16 :=
  ⟨{ State.reset with i := 0x0FFF#16 }, _, _, by decide, rfl, rfl, rfl, rfl⟩

/-- DrawingTwiceRestoresTheScreen. -/
theorem witness_DrawingTwice : ∃ t, (0 : Reg) ≠ VF ∧ (14 : Reg) ≠ VF ∧ exec (.drw 0 14 5) State.reset = .next t :=
  ⟨_, by decide, by decide, rfl⟩

/-- KeySkipsTestTheLatch (V-KEY3). -/
theorem witness_KeySkips : (10 : Key).val = ((regs State.reset [(0, 0x1A#8)]).getV 0).toNat % 16 := by decide

/-- TimerMovesMeetTheTick: each clause of the Step. -/
theorem witness_Timer : decodeWord (fetching 0xF207#16).opcode = .ldVxDt 2 ∧ decodeWord (fetching 0xF215#16).opcode = .ldDtVx 2 ∧
    decodeWord (fetching 0xF218#16).opcode = .ldStVx 2 := by decide

/-- KeyWaitRollsBackOrTakesTheLowestKey: no key (with the word fetched); the highest key alone. -/
theorem witness_KeyWait : (∀ k, (fetching 0xF30A#16).keyDown k = false) ∧ decodeWord (fetching 0xF30A#16).opcode = .ldVxK 3 ∧
    (State.reset.setKey 15 true).keyDown 15 = true ∧ ∀ j < 15, (State.reset.setKey 15 true).keyDown j = false := by decide

/-- UndefIsAReportedNoOp: in range, and with a fetch out of range. -/
theorem witness_Undef : (∃ s : State, isUndefWord s.opcode = true ∧ s.cur = StepLocal.idle ∧ s.pc.toNat + 1 = 4095) ∧
    ∃ s : State, isUndefWord s.opcode = true ∧ s.cur = StepLocal.idle ∧ s.pc.toNat + 1 = 4096 :=
  ⟨⟨{ State.reset with pc := 0x0FFE#16 }.placeFetchWord 0x8008#16, by decide⟩,
    { State.reset with pc := 0x0FFF#16 }.placeFetchWord 0x8008#16, by decide⟩

/-- ResetGivesTheListedValues: the cells at both edges of the font. -/
theorem witness_Reset : ((0x4F : Fin 4096).val < 0x50) ∧ 0x9F < (0xA0 : Fin 4096).val := by decide

/-- LoadRomCopiesOrRejects: both clauses at their common edge. -/
theorem witness_LoadRom : State.reset.mem.wf ∧ (List.replicate 3584 0x12#8).length ≤ 3584 ∧
    3584 < (List.replicate 3585 0x12#8).length :=
  ⟨by decide, by rw [List.length_replicate], by rw [List.length_replicate]; decide⟩

/-- OnlySetKeyWritesTheKeypad: the clauses of the other moves, of the Step and of `step`. -/
theorem witness_OnlySetKey :
    (∃ (m : HostMove) (p : State × HostResult), (∀ font, m ≠ .reset font) ∧ (∀ k p, m ≠ .setKey k p) ∧
      (∀ flags, m ≠ .setKeys flags) ∧ hostMove 1 m (State.reset.setKey 3 true) = .next p) ∧
    (∃ p, stepWith 0#8 (State.reset.setKey 3 true) = .next p) ∧ ∃ t, step (State.reset.setKey 3 true) = .next t :=
  ⟨⟨.loadRom [1#8], _, nofun, nofun, nofun, rfl⟩, ⟨_, rfl⟩, _, rfl⟩

end Sys2Proof.Tests
end

section
/-! PROOF. What the host's Reset leaves in each piece of state (10_state.md R35, 60_exceptions.md R290). -/

namespace Sys2Proof.Machine

/-! ### The pieces of `State.reset` that are arrays -/

@[simp] theorem State.reset_getV (x : Reg) : State.reset.getV x = 0#8 := Vector.getElem_replicate x.isLt

@[simp] theorem State.reset_slot (k : Fin 16) : State.reset.slot k = 0#16 := Vector.getElem_replicate k.isLt

@[simp] theorem State.reset_keyDown (k : Key) : State.reset.keyDown k = false := Vector.getElem_replicate k.isLt

@[simp] theorem State.reset_cell (cx cy : Nat) : State.reset.cell cx cy = false := Framebuffer.cell_clear cx cy

/-! ### Memory after Reset -/

/-- The font of any Reset fills exactly the font cells, so no byte of the default font shows through (R35, R61). -/
theorem State.resetWith_read (font : Font) (a : Nat) :
    (State.resetWith font).mem.read a = resetByte font.toList a := by
  have hlen : font.toList.length = Config.fontLen := font.length_toList
  have hfit : Config.fontBase + font.toList.length ≤ Config.memSize := by rw [hlen]; decide
  rw [State.resetWith, Memory.read_writeBytes Memory.wf_nil _ _ _ hfit, hlen, resetByte]
  split
  · rfl
  · exact Memory.unlisted_outside_font (by omega)

/-- Inside the font table the reset contents are the font's bytes in order (R29, R35). -/
theorem resetByte_font (font : Font) (j : Fin 80) : resetByte font.toList (0x50 + j.val) = font.get j := by
  have hin : Config.fontBase ≤ 0x50 + j.val ∧ 0x50 + j.val < Config.fontBase + Config.fontLen := by
    simp only [Config.fontBase, Config.fontLen]; omega
  have hj : 0x50 + j.val - Config.fontBase = j.val := Nat.add_sub_cancel_left ..
  rw [resetByte, if_pos hin, hj, List.getD_eq_getElem _ _ (j.isLt.trans_eq font.length_toList.symm), Vector.getElem_toList,
    Vector.get_eq_getElem]

/-- Outside the font table the reset contents are zero, whatever the font (R35). -/
theorem resetByte_outside_font (font : List Byte) {a : Nat} (h : a < 0x50 ∨ 0x9F < a) : resetByte font a = 0#8 := by
  rw [resetByte, if_neg (by simp only [Config.fontBase, Config.fontLen]; omega)]

/-- Settles O46: the host's Reset answers `State.resetWith font` with the old count of draws, so every piece but memory is
that of `State.reset`, and memory reads as `resetByte` of the new font. -/
theorem resetGivesTheListedValues : Obligations.ResetGivesTheListedValues := by
  intro fbSetValue s font
  refine ⟨s.hostReset font, rfl, State.reset_getV, rfl, rfl, rfl, State.reset_slot, rfl, rfl, State.reset_keyDown,
    fun cx cy => State.reset_cell cx.val cy.val, fun j => ?font, fun a ha => ?zero, rfl⟩
  case font => exact (State.resetWith_read font _).trans (resetByte_font font j)
  case zero => exact (State.resetWith_read font _).trans (resetByte_outside_font _ ha)

end Sys2Proof.Machine
end

section
/-! PROOF. The decoder against the opcode map (30_encoding.md R94 to R96). The row that a word decodes to depends on the
selectors that the dispatcher examines alone, so a row's `bits` stand for every word that the row selects; and a word
that is not UNDEF has the selectors of some row. -/

namespace Sys2Proof

/-! ### What selects a row, in the fields of R91 -/

/-- A row of mask 0xF000 selects by the primary selector. -/
theorem OpcodeRow.selects_iff_fieldP {r : OpcodeRow} {p : BitVec 4} (hm : r.mask = 0xF000#16) (hb : r.bits = formatA p 0#12)
    (w : Word) : r.selects w = true ↔ fieldP w = p := by
  rw [OpcodeRow.selects, beq_iff_eq, hm, hb, mask_F000]

/-- A row of mask 0xF00F selects by the primary selector and the low nibble. -/
theorem OpcodeRow.selects_iff_selectorN {r : OpcodeRow} {p n : BitVec 4} (hm : r.mask = 0xF00F#16)
    (hb : r.bits = formatXYN p 0 0 n) (w : Word) : r.selects w = true ↔ fieldP w = p ∧ selectorN w = n := by
  rw [OpcodeRow.selects, beq_iff_eq, hm, hb, mask_F00F]

/-- A row of mask 0xF0FF selects by the primary selector and the low byte. -/
theorem OpcodeRow.selects_iff_fieldKK {r : OpcodeRow} {p : BitVec 4} {kk : Byte} (hm : r.mask = 0xF0FF#16)
    (hb : r.bits = formatXK p 0 kk) (w : Word) : r.selects w = true ↔ fieldP w = p ∧ fieldKK w = kk := by
  rw [OpcodeRow.selects, beq_iff_eq, hm, hb, mask_F0FF]

/-! ### The groups, each with the secondary selectors it answers (R95) -/

theorem decodeWord_of_group0 {w : Word} (h : fieldP w = 0x0#4) : decodeWord w = decodeGroup0 w := by simp [decodeWord, h]

theorem decodeWord_of_group8 {w : Word} (h : fieldP w = 0x8#4) : decodeWord w = decodeGroup8 w := by simp [decodeWord, h]

theorem decodeWord_of_groupE {w : Word} (h : fieldP w = 0xE#4) : decodeWord w = decodeGroupE w := by simp [decodeWord, h]

theorem decodeWord_of_groupF {w : Word} (h : fieldP w = 0xF#4) : decodeWord w = decodeGroupF w := by simp [decodeWord, h]

theorem decodeGroup0_eq_undef_iff (w : Word) : decodeGroup0 w = .undef w ↔ selectorN w ∉ [0x0#4, 0xE#4] := by
  unfold decodeGroup0; split <;> simp_all

theorem decodeGroup8_eq_undef_iff (w : Word) : decodeGroup8 w = .undef w ↔
    selectorN w ∉ [0x0#4, 0x1#4, 0x2#4, 0x3#4, 0x4#4, 0x5#4, 0x6#4, 0x7#4, 0xE#4] := by
  unfold decodeGroup8; split <;> simp_all

theorem decodeGroupE_eq_undef_iff (w : Word) : decodeGroupE w = .undef w ↔ selectorN w ∉ [0x1#4, 0xE#4] := by
  unfold decodeGroupE; split <;> simp_all

theorem decodeGroupF_eq_undef_iff (w : Word) : decodeGroupF w = .undef w ↔
    fieldKK w ∉ [0x07#8, 0x0A#8, 0x15#8, 0x18#8, 0x1E#8, 0x29#8, 0x33#8, 0x55#8, 0x65#8] := by
  unfold decodeGroupF; split <;> simp_all

/-- The primary selectors that choose one instruction each, with no secondary selector (R94, step 1). -/
def soleSelectors : List (BitVec 4) :=
  [0x1#4, 0x2#4, 0x3#4, 0x4#4, 0x5#4, 0x6#4, 0x7#4, 0x9#4, 0xA#4, 0xB#4, 0xC#4, 0xD#4]

theorem mem_soleSelectors_or_group :
    ∀ p : BitVec 4, p ∈ soleSelectors ∨ p = 0x0#4 ∨ p = 0x8#4 ∨ p = 0xE#4 ∨ p = 0xF#4 := by decide

/-! ### The row depends on the examined selectors alone -/

theorem row_eq_of_soleSelector {w v : Word} (hp : fieldP w = fieldP v) (hv : fieldP v ∈ soleSelectors) :
    (decodeWord w).row = (decodeWord v).row := by
  simp only [soleSelectors, List.mem_cons, List.not_mem_nil, or_false] at hv
  rcases hv with h | h | h | h | h | h | h | h | h | h | h | h <;> rw [decodeWord, decodeWord, hp, h] <;> rfl

theorem row_eq_of_selectorN {w v : Word} (hp : fieldP w = fieldP v) (hn : selectorN w = selectorN v)
    (hv : fieldP v ∈ [0x0#4, 0x8#4, 0xE#4]) : (decodeWord w).row = (decodeWord v).row := by
  simp only [List.mem_cons, List.not_mem_nil, or_false] at hv
  rcases hv with h | h | h
  · rw [decodeWord_of_group0 h, decodeWord_of_group0 (hp.trans h), decodeGroup0, decodeGroup0, hn]; split <;> rfl
  · rw [decodeWord_of_group8 h, decodeWord_of_group8 (hp.trans h), decodeGroup8, decodeGroup8, hn]; split <;> rfl
  · rw [decodeWord_of_groupE h, decodeWord_of_groupE (hp.trans h), decodeGroupE, decodeGroupE, hn]; split <;> rfl

theorem row_eq_of_fieldKK {w v : Word} (hp : fieldP w = fieldP v) (hk : fieldKK w = fieldKK v) (hv : fieldP v = 0xF#4) :
    (decodeWord w).row = (decodeWord v).row := by
  rw [decodeWord_of_groupF hv, decodeWord_of_groupF (hp.trans hv), decodeGroupF, decodeGroupF, hk]; split <;> rfl

/-! ### The rows as R96 lists them -/

/-- Each row's mask examines what the dispatcher examines for the row's primary selector, and its `bits` are
zero elsewhere. -/
theorem opcodeRows_shape : ∀ r ∈ opcodeRows,
    (r.mask = 0xF000#16 ∧ r.bits = formatA (fieldP r.bits) 0#12 ∧ fieldP r.bits ∈ soleSelectors) ∨
    (r.mask = 0xF00F#16 ∧ r.bits = formatXYN (fieldP r.bits) 0 0 (selectorN r.bits) ∧
      fieldP r.bits ∈ [0x0#4, 0x8#4, 0xE#4]) ∨
    (r.mask = 0xF0FF#16 ∧ r.bits = formatXK (fieldP r.bits) 0 (fieldKK r.bits) ∧ fieldP r.bits = 0xF#4) := by decide

theorem decodeWord_bits_row : ∀ r ∈ opcodeRows, (decodeWord r.bits).row = r.row := by decide

theorem opcodeRows_row_injective : ∀ r ∈ opcodeRows, ∀ r' ∈ opcodeRows, r.row = r'.row → r = r' := by decide

/-- Row 35 is UNDEF's and none of the table's. -/
theorem opcodeRows_row_ne_undef (w : Word) : ∀ r ∈ opcodeRows, (Instr.undef w).row ≠ r.row :=
  show ∀ r ∈ opcodeRows, 35 ≠ r.row by decide

/-- The table has a row for each primary selector that needs no secondary one. -/
theorem exists_row_of_soleSelector : ∀ p ∈ soleSelectors,
    ∃ r ∈ opcodeRows, r.mask = 0xF000#16 ∧ r.bits = formatA p 0#12 := by decide

theorem exists_row_of_group0 : ∀ n ∈ [0x0#4, 0xE#4],
    ∃ r ∈ opcodeRows, r.mask = 0xF00F#16 ∧ r.bits = formatXYN 0x0#4 0 0 n := by decide

theorem exists_row_of_group8 : ∀ n ∈ [0x0#4, 0x1#4, 0x2#4, 0x3#4, 0x4#4, 0x5#4, 0x6#4, 0x7#4, 0xE#4],
    ∃ r ∈ opcodeRows, r.mask = 0xF00F#16 ∧ r.bits = formatXYN 0x8#4 0 0 n := by decide

theorem exists_row_of_groupE : ∀ n ∈ [0x1#4, 0xE#4],
    ∃ r ∈ opcodeRows, r.mask = 0xF00F#16 ∧ r.bits = formatXYN 0xE#4 0 0 n := by decide

theorem exists_row_of_groupF : ∀ kk ∈ [0x07#8, 0x0A#8, 0x15#8, 0x18#8, 0x1E#8, 0x29#8, 0x33#8, 0x55#8, 0x65#8],
    ∃ r ∈ opcodeRows, r.mask = 0xF0FF#16 ∧ r.bits = formatXK 0xF#4 0 kk := by decide

/-! ### Selection and decoding -/

/-- A word that a row selects decodes to the row's instruction, as the row's own `bits` do. -/
theorem row_eq_of_selects {r : OpcodeRow} (hr : r ∈ opcodeRows) {w : Word} (hs : r.selects w = true) :
    (decodeWord w).row = r.row := by
  rw [← decodeWord_bits_row r hr]
  obtain ⟨hm, hb, hp⟩ | ⟨hm, hb, hp⟩ | ⟨hm, hb, hp⟩ := opcodeRows_shape r hr
  · exact row_eq_of_soleSelector ((OpcodeRow.selects_iff_fieldP hm hb w).1 hs) hp
  · obtain ⟨h, hn⟩ := (OpcodeRow.selects_iff_selectorN hm hb w).1 hs
    exact row_eq_of_selectorN h hn hp
  · obtain ⟨h, hk⟩ := (OpcodeRow.selects_iff_fieldKK hm hb w).1 hs
    exact row_eq_of_fieldKK h hk hp

/-- In a group keyed by the low nibble, a word with a listed secondary selector is selected by a row. -/
theorem exists_selects_of_selectorN {w : Word} {p : BitVec 4} (hp : fieldP w = p)
    (h : ∃ r ∈ opcodeRows, r.mask = 0xF00F#16 ∧ r.bits = formatXYN p 0 0 (selectorN w)) :
    ∃ r ∈ opcodeRows, r.selects w = true := by
  obtain ⟨r, hr, hm, hb⟩ := h
  exact ⟨r, hr, (OpcodeRow.selects_iff_selectorN hm hb w).2 ⟨hp, rfl⟩⟩

/-- A word is UNDEF or some row selects it: the secondary selectors that a group does not answer are the only gap. -/
theorem eq_undef_or_exists_selects (w : Word) : decodeWord w = .undef w ∨ ∃ r ∈ opcodeRows, r.selects w = true := by
  rw [or_iff_not_imp_left]
  intro hu
  obtain hp | hp | hp | hp | hp := mem_soleSelectors_or_group (fieldP w)
  · obtain ⟨r, hr, hm, hb⟩ := exists_row_of_soleSelector _ hp
    exact ⟨r, hr, (OpcodeRow.selects_iff_fieldP hm hb w).2 rfl⟩
  · rw [decodeWord_of_group0 hp, decodeGroup0_eq_undef_iff, not_not] at hu
    exact exists_selects_of_selectorN hp (exists_row_of_group0 _ hu)
  · rw [decodeWord_of_group8 hp, decodeGroup8_eq_undef_iff, not_not] at hu
    exact exists_selects_of_selectorN hp (exists_row_of_group8 _ hu)
  · rw [decodeWord_of_groupE hp, decodeGroupE_eq_undef_iff, not_not] at hu
    exact exists_selects_of_selectorN hp (exists_row_of_groupE _ hu)
  · rw [decodeWord_of_groupF hp, decodeGroupF_eq_undef_iff, not_not] at hu
    obtain ⟨r, hr, hm, hb⟩ := exists_row_of_groupF _ hu
    exact ⟨r, hr, (OpcodeRow.selects_iff_fieldKK hm hb w).2 ⟨hp, rfl⟩⟩

theorem selects_eq_false_of_undef {w : Word} (hu : decodeWord w = .undef w) {r : OpcodeRow} (hr : r ∈ opcodeRows) :
    r.selects w = false := by
  rw [Bool.eq_false_iff]
  intro hs
  exact opcodeRows_row_ne_undef w r hr (hu ▸ row_eq_of_selects hr hs)

/-- A word that decodes to a row's instruction is selected by that row: some row selects it, and no other has the number. -/
theorem selects_of_row_eq {r : OpcodeRow} (hr : r ∈ opcodeRows) {w : Word} (h : (decodeWord w).row = r.row) :
    r.selects w = true := by
  obtain hu | ⟨r', hr', hs⟩ := eq_undef_or_exists_selects w
  · exact absurd (hu ▸ h) (opcodeRows_row_ne_undef w r hr)
  · have hrr : r' = r := opcodeRows_row_injective r' hr' r hr ((row_eq_of_selects hr' hs).symm.trans h)
    exact hrr ▸ hs

/-- Settles O2: a selected word decodes as its row's `bits` do; a word that is not UNDEF has the selectors of a row, and the
rows' numbers are distinct. -/
theorem decoderMatchesOpcodeMap : Obligations.DecoderMatchesOpcodeMap := by
  intro w
  refine ⟨fun r hr => ⟨row_eq_of_selects hr, selects_of_row_eq hr⟩, fun hnone => ?_,
    fun hu r hr => selects_eq_false_of_undef hu hr⟩
  obtain hu | ⟨r, hr, hs⟩ := eq_undef_or_exists_selects w
  · exact hu
  · exact absurd hs (Bool.eq_false_iff.1 (hnone r hr))

end Sys2Proof
end

section
/-! PROOF. The Step around its handler (40_step_cycle.md R120 to R127): what the opening and the closing of a Step leave in
each piece of state, that every handler answers a next state, and the whole Step of an UNDEF word. -/

namespace Sys2Proof.Machine

/-! ### The scratch of a Step in a frame -/

/-- Between two states with the same scratch of a Step, no frame need except the scratch. -/
theorem KeepsAllBut.of_cur_eq {p : Component → Prop} {s t : State} (hcur : s.cur = t.cur)
    (h : KeepsAllBut (fun c => p c ∨ c = .stepErr ∨ c = .rnd) s t) : KeepsAllBut p s t := by
  intro c hc
  cases c with
  | stepErr => exact congrArg StepLocal.err hcur
  | rnd => exact congrArg StepLocal.rnd hcur
  | _ => exact h _ (by simp [hc])

/-! ### The opening of a Step -/

@[simp] theorem State.beginStep_pc (s : State) (rnd : Byte) : (s.beginStep rnd).pc = s.pc + 2#16 := by
  rw [State.beginStep_eq]

@[simp] theorem State.beginStep_dt (s : State) (rnd : Byte) : (s.beginStep rnd).dt = s.dt := by rw [State.beginStep_eq]

@[simp] theorem State.beginStep_st (s : State) (rnd : Byte) : (s.beginStep rnd).st = s.st := by rw [State.beginStep_eq]

@[simp] theorem State.beginStep_err (s : State) (rnd : Byte) : (s.beginStep rnd).err = s.err := by rw [State.beginStep_eq]

@[simp] theorem State.beginStep_cur (s : State) (rnd : Byte) : (s.beginStep rnd).cur =
    ⟨rnd, if s.pc.toNat + 1 > 4095 then StepError.memoryOutOfRange.bit else 0#4⟩ := by rw [State.beginStep_eq]

theorem State.beginStep_keeps (s : State) (rnd : Byte) : KeepsAllBut (· ∈ [.pc, .stepErr, .rnd]) s (s.beginStep rnd) := by
  intro c hc
  rw [State.beginStep_eq]
  cases c with
  | pc | stepErr | rnd => exact absurd (by decide) hc
  | _ => rfl

/-- The fetch advance in integers (R122). -/
theorem pc_advance_toNat (pc : Word) : (pc + 2#16).toNat = (pc.toNat + 2) % 65536 := BitVec.toNat_add pc 2#16

/-! ### The closing of a Step -/

theorem State.endStep_keeps (s : State) : KeepsAllBut (· ∈ [.dt, .st, .err, .stepErr, .rnd]) s s.endStep := by
  intro c hc
  cases c with
  | dt | st | err | stepErr | rnd => exact absurd (by decide) hc
  | _ => rfl

/-! ### Every handler answers a next state (R125, R253) -/

/-- Only 00EE, 2nnn and Fx0A choose between two answers; each of the two is a next state, as is every other handler's one. -/
theorem exec_completes (i : Instr) (s : State) : ∃ t, exec i s = .next t := by
  cases i with
  | ret | call | ldVxK =>
    simp only [exec, execRet, execCall, execLdVxK]
    split
    · exact ⟨_, rfl⟩
    · exact ⟨_, rfl⟩
  | _ => exact ⟨_, rfl⟩

/-- Settles O8: the opcode is two cells put together, the opening of the Step is `beginStep_eq`, and its handler completes. -/
theorem fetchReadsBigEndianAndAdvances : Obligations.FetchReadsBigEndianAndAdvances := by
  intro rnd s
  obtain ⟨u, hu⟩ := exec_completes (decodeWord s.opcode) (s.beginStep rnd)
  refine ⟨wordOfBytes_toNat _ _, ?pc, ?report, by rw [State.beginStep_cur], s.beginStep_keeps rnd,
    u, _, hu, stepWith_of_exec hu, rfl⟩
  case pc => rw [State.beginStep_pc, pc_advance_toNat]
  case report =>
    have hfetch : (s.pc.toNat > 4095 ∨ s.pc.toNat + 1 > 4095) ↔ s.pc.toNat + 1 > 4095 := by omega
    simp only [State.beginStep_cur, hfetch]

/-- Settles O9: the Step's state is `endStep` of what its handler answers. -/
theorem stepTicksTimersAndKeepsErrors : Obligations.StepTicksTimersAndKeepsErrors := by
  intro rnd s
  obtain ⟨u, hu⟩ := exec_completes (decodeWord s.opcode) (s.beginStep rnd)
  exact ⟨u, u.endStep, _, hu, stepWith_of_exec hu, tickByte_toNat u.dt, tickByte_toNat u.st, rfl, rfl, u.endStep_keeps⟩

/-! ### UNDEF (R98, R127) -/

/-- R98's list (a) to (d), one group of the dispatcher each: the secondary selector is none that the group answers. -/
theorem decodeWord_of_isUndefWord {w : Word} (h : isUndefWord w = true) : decodeWord w = .undef w := by
  have hgroup8 : ∀ n : BitVec 4, n ∈ [0x8#4, 0x9#4, 0xA#4, 0xB#4, 0xC#4, 0xD#4, 0xF#4] →
      n ∉ [0x0#4, 0x1#4, 0x2#4, 0x3#4, 0x4#4, 0x5#4, 0x6#4, 0x7#4, 0xE#4] := by decide
  simp only [isUndefWord, Bool.or_eq_true, Bool.and_eq_true, beq_iff_eq, Bool.not_eq_true', Bool.or_eq_false_iff,
    beq_eq_false_iff_ne] at h
  obtain ((⟨hp, hn⟩ | ⟨hp, hn⟩) | ⟨hp, hn⟩) | ⟨hp, hk⟩ := h
  · rw [decodeWord_of_group0 hp, decodeGroup0_eq_undef_iff]
    simpa [selectorN] using hn
  · rw [decodeWord_of_group8 hp, decodeGroup8_eq_undef_iff]
    exact hgroup8 _ (by simpa [selectorN, or_assoc] using hn)
  · rw [decodeWord_of_groupE hp, decodeGroupE_eq_undef_iff]
    simpa [selectorN] using hn
  · rw [decodeWord_of_groupF hp, decodeGroupF_eq_undef_iff]
    simpa [fieldKK, and_assoc] using hk

theorem exec_undef (w : Word) (s : State) : exec (.undef w) s = .next (s.raise .unknownOpcode) := rfl

/-- The fetch's kind, if it was raised, and the handler's. -/
theorem fetchError_or_unknownOpcode (c : Prop) [Decidable c] :
    (if c then StepError.memoryOutOfRange.bit else 0#4) ||| StepError.unknownOpcode.bit =
      if c then 0b1001#4 else 0b0001#4 := by
  split
  · rfl
  · rfl

/-- The Step's scratch is idle at both ends, so opening, report and closing change the four named pieces alone. -/
theorem undefStep_keeps (s : State) (rnd : Byte) (hcur : s.cur = StepLocal.idle) :
    KeepsAllBut (· ∈ [.pc, .dt, .st, .err]) s ((s.beginStep rnd).raise .unknownOpcode).endStep := by
  have hopen := s.beginStep_keeps rnd
  have hraise := (s.beginStep rnd).raise_keeps .unknownOpcode
  have hclose := ((s.beginStep rnd).raise .unknownOpcode).endStep_keeps
  refine .of_cur_eq hcur (((hopen.mono ?_).trans (hraise.mono ?_)).trans (hclose.mono ?_))
  · simp
  · simp
  · simp

/-- Settles O45: the handler is one `raise`, between the opening and the closing of the Step. -/
theorem undefIsAReportedNoOp : Obligations.UndefIsAReportedNoOp := by
  refine ⟨fun s w => ⟨_, exec_undef w s, by simp [RaisesIf], s.raise_keeps _⟩, fun rnd s hw hcur => ?_⟩
  have hexec : exec (decodeWord s.opcode) (s.beginStep rnd) = .next ((s.beginStep rnd).raise .unknownOpcode) := by
    rw [decodeWord_of_isUndefWord hw, exec_undef]
  refine ⟨_, _, stepWith_of_exec hexec, ?pc, ?dt, ?st, ?report, rfl, ?err, undefStep_keeps s rnd hcur⟩
  case pc => rw [State.endStep_pc, State.raise_pc, State.beginStep_pc, pc_advance_toNat]
  case dt => rw [State.endStep_dt, State.raise_dt, State.beginStep_dt, tickByte_toNat]
  case st => rw [State.endStep_st, State.raise_st, State.beginStep_st, tickByte_toNat]
  case report => simp only [State.raise_cur, State.beginStep_cur, fetchError_or_unknownOpcode]
  case err => rw [State.endStep_err, State.raise_err, State.beginStep_err]

end Sys2Proof.Machine
end

section
/-! PROOF. Control transfer (41_control_flow.md R140 to R147): returns, calls, jumps and skips, each with the words that
decode to it, what it does to PC and the stack, and its frame. -/

namespace Sys2Proof.Machine

/-! ### The words of a row, from the selectors that its mask examines -/

/-- A row of mask 0xF000: what the dispatcher answers on its primary selector. -/
theorem RowDecodes.of_fieldP {bits : Word} {f : Word → Instr} (p : BitVec 4) (hb : bits = formatA p 0#12)
    (h : ∀ w, fieldP w = p → decodeWord w = f w) : RowDecodes 0xF000#16 bits f :=
  fun w hw => h w ((mask_F000 w p).1 (hw.trans hb))

/-- A row of mask 0xF00F: what the dispatcher answers on its primary selector and low nibble. -/
theorem RowDecodes.of_selectorN {bits : Word} {f : Word → Instr} (p n : BitVec 4) (hb : bits = formatXYN p 0 0 n)
    (h : ∀ w, fieldP w = p → selectorN w = n → decodeWord w = f w) : RowDecodes 0xF00F#16 bits f := by
  intro w hw
  obtain ⟨hp, hn⟩ := (mask_F00F w p n).1 (hw.trans hb)
  exact h w hp hn

/-! ### The stack pointer and one slot in a frame -/

theorem State.withSp_keeps (s : State) (p : Fin 17) : KeepsAllBut (· = .sp) s { s with sp := p } := by
  intro c hc
  cases c with
  | sp => exact absurd rfl hc
  | _ => rfl

theorem State.setSlot_keeps (s : State) (k : Fin 16) (w : Word) : KeepsAllBut (· = .stack k) s (s.setSlot k w) := by
  intro c hc
  cases c with
  | stack j =>
    have hjk : j ≠ k := fun e => hc (congrArg Component.stack e)
    exact ((s.slot_setSlot k j w).trans (if_neg hjk)).symm
  | _ => rfl

/-! ### 00EE (R140) -/

theorem exec_ret_of_some (s : State) {k : Fin 16} (h : s.sp.val = k.val + 1) :
    exec .ret s = .next ({ s with sp := ⟨k.val, by omega⟩ }.setPc (s.slot k)) := by
  rw [exec, execRet, State.pop_of_some s h]

theorem exec_ret_of_empty (s : State) (h : s.sp.val = 0) : exec .ret s = .next (s.raise .stackUnderflow) := by
  rw [exec, execRet, State.pop_empty s h]

/-- Settles O22: with SP = k + 1 the handler lowers SP and sets PC from slot k; with SP = 0 it is one `raise`. -/
theorem returnPopsOrReportsUnderflow : Obligations.ReturnPopsOrReportsUnderflow := by
  refine ⟨.of_selectorN 0x0#4 0xE#4 rfl ?decodes, fun s k h => ?pops, fun s h => ?underflow⟩
  case decodes =>
    intro w hp hn
    simp only [decodeWord_of_group0 hp, decodeGroup0, hn]
  case pops =>
    refine ⟨_, exec_ret_of_some s h, rfl, rfl, ?_⟩
    exact ((s.withSp_keeps _).mono (by simp)).trans ((State.setPc_keeps _ _).mono (by simp))
  case underflow => exact ⟨_, exec_ret_of_empty s h, by simp [RaisesIf], s.raise_keeps _⟩

/-! ### 2nnn (R142) -/

theorem exec_call_of_room (s : State) (nnn : Addr12) {k : Fin 16} (h : s.sp.val = k.val) :
    exec (.call nnn) s = .next ({ s.setSlot k s.pc with sp := ⟨k.val + 1, by omega⟩ }.setPc (target nnn)) := by
  rw [exec, execCall, State.push_of_room s s.pc h]

theorem exec_call_of_full (s : State) (nnn : Addr12) (h : s.sp.val = 16) :
    exec (.call nnn) s = .next (s.raise .stackOverflow) := by
  rw [exec, execCall, State.push_full s s.pc h]

/-- Twelve bits are zero-extended, never sign-extended (R93, R148). -/
@[simp] theorem target_toNat (nnn : Addr12) : (target nnn).toNat = nnn.toNat :=
  BitVec.toNat_setWidth_of_le (b := nnn) (by decide)

/-- Settles O23: with SP = k below 16 the handler writes slot k, raises SP and sets PC; with SP = 16 it is one `raise`. -/
theorem callPushesOrReportsOverflow : Obligations.CallPushesOrReportsOverflow := by
  refine ⟨.of_fieldP 0x2#4 rfl fun w hp => by simp only [decodeWord, hp],
    fun s nnn k h => ?pushes, fun s nnn h => ?overflow⟩
  case pushes =>
    refine ⟨_, exec_call_of_room s nnn h, ?slot, rfl, target_toNat nnn, ?frame⟩
    case slot => exact (s.slot_setSlot k k s.pc).trans (if_pos rfl)
    case frame =>
      have hslot := s.setSlot_keeps k s.pc
      have hsp := (s.setSlot k s.pc).withSp_keeps ⟨k.val + 1, by omega⟩
      exact ((hslot.mono (by simp)).trans (hsp.mono (by simp))).trans ((State.setPc_keeps _ _).mono (by simp))
  case overflow => exact ⟨_, exec_call_of_full s nnn h, by simp [RaisesIf], s.raise_keeps _⟩

/-! ### 1nnn and Bnnn (R141, R147) -/

/-- 0xFFF + 0xFF is below 65536, so the sum is exact. -/
theorem indexedTarget_toNat (s : State) (nnn : Addr12) :
    (indexedTarget s nnn).toNat = nnn.toNat + (s.getV 0).toNat := by
  have hnnn : nnn.zext.toNat = nnn.toNat := target_toNat nnn
  have hv : (s.getV 0).zext.toNat = (s.getV 0).toNat := BitVec.toNat_setWidth_of_le (by decide)
  rw [indexedTarget, BitVec.toNat_add, hnnn, hv]
  omega

/-- Settles O25: both jumps are one `setPc`, to a target that is exact in integers. -/
theorem jumpsSetPc : Obligations.JumpsSetPc := by
  refine ⟨.of_fieldP 0x1#4 rfl fun w hp => by simp only [decodeWord, hp],
    .of_fieldP 0xB#4 rfl fun w hp => by simp only [decodeWord, hp],
    fun s nnn => ⟨?jp, ?jpV0⟩⟩
  case jp => exact ⟨_, rfl, target_toNat nnn, s.setPc_keeps _⟩
  case jpV0 => exact ⟨_, rfl, indexedTarget_toNat s nnn, s.setPc_keeps _⟩

/-! ### 3xkk, 4xkk, 5xy0 and 9xy0 (R143 to R146) -/

/-- A skip is the fetch advance once more, or nothing. -/
theorem State.skipIf_pc_toNat (s : State) (c : Bool) :
    (s.skipIf c).pc.toNat = (s.pc.toNat + if c then 2 else 0) % 65536 := by
  cases c with
  | false => exact (Nat.mod_eq_of_lt s.pc.isLt).symm
  | true => exact pc_advance_toNat s.pc

theorem State.skipIf_beq_pc_toNat (s : State) (a b : Byte) :
    (s.skipIf (a == b)).pc.toNat = (s.pc.toNat + if a.toNat = b.toNat then 2 else 0) % 65536 := by
  rw [State.skipIf_pc_toNat]
  simp only [beq_iff_eq, BitVec.toNat_inj]

theorem State.skipIf_bne_pc_toNat (s : State) (a b : Byte) :
    (s.skipIf (a != b)).pc.toNat = (s.pc.toNat + if a.toNat = b.toNat then 0 else 2) % 65536 := by
  rw [State.skipIf_pc_toNat]
  simp only [bne_iff_ne, ne_eq, ite_not, BitVec.toNat_inj]

/-- Settles O26: each handler is one `skipIf`, on the equality of two bytes or its negation. -/
theorem skipsCompareUnsignedBytes : Obligations.SkipsCompareUnsignedBytes := by
  refine ⟨.of_fieldP 0x3#4 rfl fun w hp => by simp only [decodeWord, hp],
    .of_fieldP 0x4#4 rfl fun w hp => by simp only [decodeWord, hp],
    .of_fieldP 0x5#4 rfl fun w hp => by simp only [decodeWord, hp],
    .of_fieldP 0x9#4 rfl fun w hp => by simp only [decodeWord, hp],
    fun s x y kk => ⟨?seByte, ?sneByte, ?seReg, ?sneReg⟩⟩
  case seByte => exact ⟨_, rfl, s.skipIf_keeps _, s.skipIf_beq_pc_toNat (s.getV x) kk⟩
  case sneByte => exact ⟨_, rfl, s.skipIf_keeps _, s.skipIf_bne_pc_toNat (s.getV x) kk⟩
  case seReg => exact ⟨_, rfl, s.skipIf_keeps _, s.skipIf_beq_pc_toNat (s.getV x) (s.getV y)⟩
  case sneReg => exact ⟨_, rfl, s.skipIf_keeps _, s.skipIf_bne_pc_toNat (s.getV x) (s.getV y)⟩

end Sys2Proof.Machine
end

section
/-! PROOF. Register loads, arithmetic, logic, shifts and random (42_alu.md R160 to R173): each with the words that decode to
it, what it leaves in Vx and in VF, and its frame; and that no handler but that of Cxkk observes the RND input (R268). -/

namespace Sys2Proof.Machine

/-! ### The words of group 8 -/

/-- A row of group 8: what the group answers on the row's low nibble. -/
theorem RowDecodes.of_group8 {bits : Word} {f : Word → Instr} (n : BitVec 4) (hb : bits = formatXYN 0x8#4 0 0 n)
    (h : ∀ w, selectorN w = n → decodeGroup8 w = f w) : RowDecodes 0xF00F#16 bits f :=
  .of_selectorN 0x8#4 n hb fun w hp hn => (decodeWord_of_group8 hp).trans (h w hn)

/-! ### The two writes of a flag-setting instruction (R9, R173) -/

@[simp] theorem State.getV_setFlagThenV_same (s : State) (x : Reg) (f r : Byte) : (s.setFlagThenV x f r).getV x = r := by
  rw [State.getV_setFlagThenV, if_pos rfl]

theorem State.getV_setFlagThenV_VF (s : State) {x : Reg} (hx : x ≠ VF) (f r : Byte) :
    (s.setFlagThenV x f r).getV VF = f := by
  rw [State.getV_setFlagThenV, if_neg hx.symm, if_pos rfl]

theorem State.setFlagThenV_keeps_vx_vf (s : State) (x : Reg) (f r : Byte) :
    KeepsAllBut (· ∈ [.v x, .v VF]) s (s.setFlagThenV x f r) :=
  (s.setFlagThenV_keeps x f r).mono fun c hc => by simpa using hc.symm

/-! ### Flags and results in integers (R172) -/

theorem flag_toNat (c : Bool) : (flag c).toNat = c.toNat := by
  cases c
  · rfl
  · rfl

theorem carryFlag_toNat (a b : Byte) : (carryFlag a b).toNat = if a.toNat + b.toNat > 255 then 1 else 0 := by
  rw [carryFlag, flag_toNat, Bool.toNat, Bool.cond_decide]

theorem greaterFlag_toNat (a b : Byte) : (greaterFlag a b).toNat = if a.toNat > b.toNat then 1 else 0 := by
  rw [greaterFlag, flag_toNat, Bool.toNat, Bool.cond_decide]

theorem lowBitFlag_toNat (a : Byte) : (lowBitFlag a).toNat = a.toNat % 2 := by
  rw [lowBitFlag, flag_toNat, BitVec.getLsbD, Nat.toNat_testBit, pow_zero, Nat.div_one]

/-- A byte above bit 7 is zero, so what stands from bit 7 on is bit 7. -/
theorem highBitFlag_toNat (a : Byte) : (highBitFlag a).toNat = a.toNat / 128 := by
  rw [highBitFlag, flag_toNat, BitVec.getLsbD, Nat.toNat_testBit]
  omega

/-- A difference of bytes, borrowing 256 (R167). -/
theorem byte_sub_toNat (a b : Byte) : (a - b).toNat = (a.toNat + 256 - b.toNat) % 256 := by
  rw [BitVec.toNat_sub]
  omega

theorem byte_shiftRight_one_toNat (a : Byte) : (a >>> 1).toNat = a.toNat / 2 := by
  rw [BitVec.toNat_ushiftRight, Nat.shiftRight_one]

theorem byte_shiftLeft_one_toNat (a : Byte) : (a <<< 1).toNat = a.toNat * 2 % 256 := by
  rw [BitVec.toNat_shiftLeft, Nat.shiftLeft_eq, pow_one]

/-! ### 6xkk, 8xy0 and 7xkk (R160 to R162) -/

/-- Settles O27: both loads are one `setV`. -/
theorem loadsCopyBytes : Obligations.LoadsCopyBytes := by
  refine ⟨.of_fieldP 0x6#4 rfl fun w hp => by simp only [decodeWord, hp],
    .of_group8 0x0#4 rfl fun w hn => by simp only [decodeGroup8, hn],
    fun s x y kk => ⟨?ldByte, ?ldReg⟩⟩
  case ldByte => exact ⟨_, rfl, s.getV_setV_same x kk, s.setV_keeps x kk⟩
  case ldReg => exact ⟨_, rfl, s.getV_setV_same x _, s.setV_keeps x _⟩

/-- Settles O28: the handler is one `setV` of a sum of bytes. -/
theorem addByteWrapsWithoutFlag : Obligations.AddByteWrapsWithoutFlag := by
  refine ⟨.of_fieldP 0x7#4 rfl fun w hp => by simp only [decodeWord, hp], fun s x kk => ⟨_, rfl, ?sum, s.setV_keeps x _⟩⟩
  case sum => rw [State.getV_setV_same, BitVec.toNat_add]

/-! ### 8xy1, 8xy2 and 8xy3 (R163 to R165) -/

/-- Settles O29: each handler is one `setV` of a bitwise operation. -/
theorem logicIsBitwiseAndLeavesVF : Obligations.LogicIsBitwiseAndLeavesVF := by
  refine ⟨.of_group8 0x1#4 rfl fun w hn => by simp only [decodeGroup8, hn],
    .of_group8 0x2#4 rfl fun w hn => by simp only [decodeGroup8, hn],
    .of_group8 0x3#4 rfl fun w hn => by simp only [decodeGroup8, hn],
    fun s x y => ⟨⟨_, rfl, s.setV_keeps x _, fun b => ?or⟩, ⟨_, rfl, s.setV_keeps x _, fun b => ?and⟩,
      ⟨_, rfl, s.setV_keeps x _, fun b => ?xor⟩⟩⟩
  case or => rw [State.getV_setV_same, BitVec.getLsbD_or]
  case and => rw [State.getV_setV_same, BitVec.getLsbD_and]
  case xor => rw [State.getV_setV_same, BitVec.getLsbD_xor]

/-! ### 8xy4, 8xy5 and 8xy7 (R166, R167, R169) -/

/-- Settles O30: the handler is one `setFlagThenV` of the carry and the sum. -/
theorem addRegSetsCarry : Obligations.AddRegSetsCarry := by
  refine ⟨.of_group8 0x4#4 rfl fun w hn => by simp only [decodeGroup8, hn],
    fun s x y => ⟨_, rfl, ?sum, fun hx => ?carry, s.setFlagThenV_keeps_vx_vf x _ _⟩⟩
  case sum => rw [State.getV_setFlagThenV_same, BitVec.toNat_add]
  case carry => rw [State.getV_setFlagThenV_VF s hx, carryFlag_toNat]

/-- What both subtractions leave: the difference modulo 256, and the strict comparison of minuend and subtrahend. -/
theorem State.setFlagThenV_sub (s : State) (x : Reg) (a b : Byte) :
    ((s.setFlagThenV x (greaterFlag a b) (a - b)).getV x).toNat = (a.toNat + 256 - b.toNat) % 256 ∧
    (x ≠ VF → ((s.setFlagThenV x (greaterFlag a b) (a - b)).getV VF).toNat = if a.toNat > b.toNat then 1 else 0) ∧
    KeepsAllBut (· ∈ [.v x, .v VF]) s (s.setFlagThenV x (greaterFlag a b) (a - b)) := by
  refine ⟨?difference, fun hx => ?comparison, s.setFlagThenV_keeps_vx_vf x _ _⟩
  case difference => rw [State.getV_setFlagThenV_same, byte_sub_toNat]
  case comparison => rw [State.getV_setFlagThenV_VF s hx, greaterFlag_toNat]

/-- Settles O31: one `setFlagThenV` each, with the operands of 8xy7 exchanged. -/
theorem subtractionsCompareStrictly : Obligations.SubtractionsCompareStrictly :=
  ⟨.of_group8 0x5#4 rfl fun w hn => by simp only [decodeGroup8, hn],
    .of_group8 0x7#4 rfl fun w hn => by simp only [decodeGroup8, hn],
    fun s x y => ⟨⟨_, rfl, s.setFlagThenV_sub x (s.getV x) (s.getV y)⟩,
      ⟨_, rfl, s.setFlagThenV_sub x (s.getV y) (s.getV x)⟩⟩⟩

/-! ### 8xy6 and 8xyE (R168, R170) -/

/-- Settles O32: one `setFlagThenV` each, of the bit shifted out and the shifted Vx. -/
theorem shiftsMoveVxByOneBit : Obligations.ShiftsMoveVxByOneBit := by
  refine ⟨.of_group8 0x6#4 rfl fun w hn => by simp only [decodeGroup8, hn],
    .of_group8 0xE#4 rfl fun w hn => by simp only [decodeGroup8, hn],
    fun s x y => ⟨⟨_, rfl, ?half, fun hx => ?bit0, s.setFlagThenV_keeps_vx_vf x _ _⟩,
      ⟨_, rfl, ?double, fun hx => ?bit7, s.setFlagThenV_keeps_vx_vf x _ _⟩⟩⟩
  case half => rw [State.getV_setFlagThenV_same, byte_shiftRight_one_toNat]
  case bit0 => rw [State.getV_setFlagThenV_VF s hx, lowBitFlag_toNat]
  case double => rw [State.getV_setFlagThenV_same, byte_shiftLeft_one_toNat]
  case bit7 => rw [State.getV_setFlagThenV_VF s hx, highBitFlag_toNat]

end Sys2Proof.Machine
end

section
/-! PROOF. The RND input (42_alu.md R171, R268). Replacing it in a state commutes with every shared operation, and so with
every handler but that of Cxkk, the one that reads it; the closing of the Step drops it. -/

namespace Sys2Proof.Machine

/-! ### Replacing the RND input -/

/-- The state with another RND input for the Step in progress. -/
def State.withRnd (s : State) (r : Byte) : State := { s with cur := { s.cur with rnd := r } }

@[simp] theorem State.withRnd_cur_err (s : State) (r : Byte) : (s.withRnd r).cur.err = s.cur.err := rfl

/-- Two openings of the same Step differ in the RND input alone. -/
theorem State.beginStep_withRnd (s : State) (a b : Byte) : (s.beginStep a).withRnd b = s.beginStep b := by
  rw [State.beginStep_eq, State.beginStep_eq]
  rfl

/-- The closing of the Step drops the RND input. -/
@[simp] theorem State.endStep_withRnd (s : State) (r : Byte) : (s.withRnd r).endStep = s.endStep := rfl

/-! ### The shared operations leave the RND input alone and do not read it -/

theorem State.skipIf_withRnd (s : State) (r : Byte) (c : Bool) : (s.withRnd r).skipIf c = (s.skipIf c).withRnd r := by
  cases c
  · rfl
  · rfl

theorem State.checkAddr_withRnd (s : State) (r : Byte) (ea : Nat) :
    (s.withRnd r).checkAddr ea = (s.checkAddr ea).withRnd r := by
  rw [State.checkAddr_eq, State.checkAddr_eq]
  rfl

theorem State.memRead_withRnd (s : State) (r : Byte) (ea : Nat) :
    (s.withRnd r).memRead ea = (s.readByte ea, (s.checkAddr ea).withRnd r) :=
  congrArg (Prod.mk _) (s.checkAddr_withRnd r ea)

theorem State.memWrite_withRnd (s : State) (r : Byte) (ea : Nat) (b : Byte) :
    (s.withRnd r).memWrite ea b = (s.memWrite ea b).withRnd r := by
  rw [State.memWrite_eq, State.memWrite_eq]
  rfl

theorem State.storeAll_withRnd (s0 : State) (r : Byte) (rs : List Reg) (s : State) :
    State.storeAll (s0.withRnd r) rs (s.withRnd r) = (State.storeAll s0 rs s).withRnd r := by
  induction rs generalizing s with
  | nil => rfl
  | cons q rs ih => exact (congrArg _ (s.memWrite_withRnd r _ _)).trans (ih _)

theorem State.loadAll_withRnd (r : Byte) (rs : List Reg) (s : State) :
    State.loadAll rs (s.withRnd r) = (State.loadAll rs s).withRnd r := by
  induction rs generalizing s with
  | nil => rfl
  | cons q rs ih =>
    rw [State.loadAll, State.memRead_withRnd]
    exact ih ((s.checkAddr (s.ea q.val)).setV q (s.readByte (s.ea q.val)))

theorem State.drawCell_withRnd (s : State) (r : Byte) (cx cy : Nat) :
    (s.withRnd r).drawCell cx cy = (s.drawCell cx cy).withRnd r := by
  have hcell : (s.withRnd r).cell cx cy = s.cell cx cy := rfl
  rw [State.drawCell, State.drawCell, hcell]
  split
  · rfl
  · rfl

theorem State.drawColumns_withRnd (x0 cy : Nat) (b r : Byte) (cs : List Nat) (s : State) :
    State.drawColumns x0 cy b cs (s.withRnd r) = (State.drawColumns x0 cy b cs s).withRnd r := by
  induction cs generalizing s with
  | nil => rfl
  | cons c cs ih =>
    rw [State.drawColumns, State.drawColumns, State.drawCell_withRnd, ← apply_ite (State.withRnd · r), ih]

theorem State.drawRows_withRnd (x0 y0 : Nat) (r : Byte) (rs : List Nat) (s : State) :
    State.drawRows x0 y0 rs (s.withRnd r) = (State.drawRows x0 y0 rs s).withRnd r := by
  induction rs generalizing s with
  | nil => rfl
  | cons q rs ih =>
    rw [State.drawRows, State.drawRows, State.memRead_withRnd]
    split
    · rfl
    · exact (congrArg _ (State.drawColumns_withRnd ..)).trans (ih _)

/-! ### The handlers -/

/-- Where a handler tests the state, the replacement does not change the test; where it runs a shared operation, the lemma
of that operation moves the replacement past it. -/
theorem exec_withRnd {i : Instr} (hi : ∀ x kk, i ≠ .rnd x kk) {s t : State} (h : exec i s = .next t) (r : Byte) :
    exec i (s.withRnd r) = .next (t.withRnd r) := by
  cases i with
  | rnd x kk => exact absurd rfl (hi x kk)
  | ret =>
    obtain hsp | ⟨k, hsp⟩ := sp_zero_or_succ s.sp
    · rw [exec_ret_of_empty s hsp] at h
      cases h
      exact exec_ret_of_empty (s.withRnd r) hsp
    · rw [exec_ret_of_some s hsp] at h
      cases h
      exact exec_ret_of_some (s.withRnd r) hsp
  | call nnn =>
    obtain ⟨k, hsp⟩ | hsp := sp_slot_or_full s.sp
    · rw [exec_call_of_room s nnn hsp] at h
      cases h
      exact exec_call_of_room (s.withRnd r) nnn hsp
    · rw [exec_call_of_full s nnn hsp] at h
      cases h
      exact exec_call_of_full (s.withRnd r) nnn hsp
  | ldVxK x =>
    have hkey : (s.withRnd r).lowestKey = s.lowestKey := rfl
    rw [exec, execLdVxK] at h ⊢
    rw [hkey]
    split at h
    · cases h; rfl
    · cases h; rfl
  | seByte | sneByte | seReg | sneReg | skp | sknp =>
    cases h
    exact congrArg _ (s.skipIf_withRnd r _)
  | ldB x =>
    cases h
    simp only [exec, execLdB, State.memWrite_withRnd]
    rfl
  | storeRegs x => cases h; exact congrArg _ (State.storeAll_withRnd s r _ s)
  | loadRegs x => cases h; exact congrArg _ (State.loadAll_withRnd r _ s)
  | drw x y n => cases h; exact congrArg _ (State.drawRows_withRnd _ _ r _ (s.setV VF 0#8))
  | _ => cases h; rfl

/-- A Step whose word is not Cxkk is the same for every RND input (R268). -/
theorem stepWith_ignores_rnd {s : State} (hs : ∀ x kk, decodeWord s.opcode ≠ .rnd x kk) (a b : Byte) :
    stepWith a s = stepWith b s := by
  obtain ⟨t, ht⟩ := exec_completes (decodeWord s.opcode) (s.beginStep a)
  have hb := exec_withRnd hs ht b
  rw [State.beginStep_withRnd] at hb
  rw [stepWith_of_exec ht, stepWith_of_exec hb, State.endStep_withRnd, State.withRnd_cur_err]

/-! ### Cxkk (R171) -/

theorem exec_rnd (x : Reg) (kk : Byte) (s : State) : exec (.rnd x kk) s = .next (s.setV x (s.cur.rnd &&& kk)) := rfl

theorem byte_and_and_not (a kk : Byte) : a &&& kk &&& ~~~kk = 0#8 := by
  rw [BitVec.and_assoc, BitVec.and_not_self]
  exact BitVec.and_zero

/-- Settles O33: the handler is one `setV` of the masked RND input, which the opening of the Step latched; no other handler
observes that input. -/
theorem randomByteIsMasked : Obligations.RandomByteIsMasked := by
  refine ⟨.of_fieldP 0xC#4 rfl fun w hp => by simp only [decodeWord, hp], fun s x kk => ?handler, fun r s x kk hw => ?step,
    fun a b s hs => stepWith_ignores_rnd hs a b⟩
  case handler =>
    refine ⟨_, exec_rnd x kk s, s.getV_setV_same x _, ?_, s.setV_keeps x _⟩
    rw [State.getV_setV_same, byte_and_and_not]
  case step =>
    have hexec : exec (decodeWord s.opcode) (s.beginStep r) = .next ((s.beginStep r).setV x (r &&& kk)) := by
      rw [hw, exec_rnd, State.beginStep_cur]
    exact ⟨_, _, stepWith_of_exec hexec, State.getV_setV_same _ x _⟩

end Sys2Proof.Machine
end

section
/-! PROOF. Index register and memory (43_index_memory.md R190 to R196): the three writes of I, the decimal digits, and the
register transfers, each with the words that decode to it, the cells it uses, what it reports, and its frame. -/

namespace Sys2Proof.Machine

/-! ### The words of group F -/

/-- A row of group F: what the group answers on the row's low byte. -/
theorem RowDecodes.of_groupF {bits : Word} {f : Word → Instr} (kk : Byte) (hb : bits = formatXK 0xF#4 0 kk)
    (h : ∀ w, fieldKK w = kk → decodeGroupF w = f w) : RowDecodes 0xF0FF#16 bits f := by
  intro w hw
  obtain ⟨hp, hk⟩ := (mask_F0FF w 0xF#4 kk).1 (hw.trans hb)
  exact (decodeWord_of_groupF hp).trans (h w hk)

/-! ### Annn, Fx1E and Fx29 (R190 to R192) -/

theorem byte_zext_toNat (a : Byte) : a.zext.toNat = a.toNat := BitVec.toNat_setWidth_of_le (by decide)

theorem indexSum_toNat (i : Word) (a : Byte) : (indexSum i a).toNat = (i.toNat + a.toNat) % 65536 := by
  rw [indexSum, BitVec.toNat_add, byte_zext_toNat]

/-- 0x50 + 5 · 255 is below 65536, so the address is exact for the whole byte. -/
theorem glyphAddress_toNat (a : Byte) : (glyphAddress a).toNat = 0x50 + 5 * a.toNat := by
  have hbase : (BitVec.ofNat 16 Config.fontBase).toNat = 0x50 := rfl
  have hlen : (BitVec.ofNat 16 Config.glyphLen).toNat = 5 := rfl
  rw [glyphAddress, BitVec.toNat_add, BitVec.toNat_mul, byte_zext_toNat, hbase, hlen]
  omega

/-- Settles O34: each handler is one `setI`, of a value that is known in integers. -/
theorem indexRegisterWrites : Obligations.IndexRegisterWrites := by
  refine ⟨.of_fieldP 0xA#4 rfl fun w hp => by simp only [decodeWord, hp],
    .of_groupF 0x1E#8 rfl fun w hk => by simp only [decodeGroupF, hk],
    .of_groupF 0x29#8 rfl fun w hk => by simp only [decodeGroupF, hk],
    fun s x nnn => ⟨?ldI, ?addI, ?ldF⟩⟩
  case ldI => exact ⟨_, rfl, target_toNat nnn, s.setI_keeps _⟩
  case addI => exact ⟨_, rfl, indexSum_toNat s.i (s.getV x), s.setI_keeps _⟩
  case ldF => exact ⟨_, rfl, glyphAddress_toNat (s.getV x), s.setI_keeps _⟩

/-! ### Reports of one kind, put together (R250) -/

theorem RaisesIf.congr {c d : Prop} [Decidable c] [Decidable d] {e : StepError} {s t : State} (hcd : c ↔ d)
    (h : RaisesIf c e s t) : RaisesIf d e s t := by
  simpa only [RaisesIf, hcd] using h

/-- A kind that either of two operations raises is raised by both in a row, once. -/
theorem RaisesIf.trans {c d : Prop} [Decidable c] [Decidable d] {e : StepError} {s t u : State}
    (h : RaisesIf c e s t) (g : RaisesIf d e t u) : RaisesIf (c ∨ d) e s u := by
  unfold RaisesIf at h g ⊢
  rw [g, h, BitVec.or_assoc]
  by_cases hc : c
  · by_cases hd : d
    · simp [hc, hd]
    · simp [hc, hd]
  · simp [hc]

theorem State.memWrite_raises (s : State) (ea : Nat) (b : Byte) :
    RaisesIf (ea > 4095) .memoryOutOfRange s (s.memWrite ea b) := by
  rw [State.memWrite_eq, RaisesIf]

/-! ### Fx33 (R193) -/

theorem hundreds_toNat (a : Byte) : (hundreds a).toNat = a.toNat / 100 := by
  rw [hundreds, BitVec.toNat_ofNat]
  omega

theorem tens_toNat (a : Byte) : (tens a).toNat = a.toNat / 10 % 10 := by
  rw [tens, BitVec.toNat_ofNat]
  omega

theorem units_toNat (a : Byte) : (units a).toNat = a.toNat % 10 := by
  rw [units, BitVec.toNat_ofNat]
  omega

/-- Three bytes stored by data accesses 0, 1 and 2 of a state. -/
def State.storeThree (s : State) (a b c : Byte) : State :=
  ((s.memWrite (s.ea 0) a).memWrite (s.ea 1) b).memWrite (s.ea 2) c

theorem exec_ldB (x : Reg) (s : State) :
    exec (.ldB x) s = .next (s.storeThree (hundreds (s.getV x)) (tens (s.getV x)) (units (s.getV x))) := rfl

/-- A store by access j of the state `s`, seen by access k of it: two accesses name one cell only if they are the same. -/
theorem State.read_memWrite_ea (s t : State) (ht : t.mem.wf) {j k : Nat} (hj : j < 4096) (hk : k < 4096) (b : Byte) :
    (t.memWrite (s.ea j) b).mem.read (s.dataCell k) = if k = j then b else t.mem.read (s.dataCell k) := by
  have hcell : s.dataCell k = s.dataCell j ↔ k = j := ⟨s.dataCell_inj hk hj, congrArg _⟩
  have hread := t.readByte_memWrite ht (s.ea j) (s.ea k) b
  rw [← State.dataCell, ← State.dataCell] at hread
  simp only [hcell] at hread
  exact hread

/-- Three different cells, so each holds its own byte. -/
theorem State.storeThree_values (s : State) (h : s.mem.wf) (a b c : Byte) :
    (s.storeThree a b c).mem.read (s.dataCell 0) = a ∧ (s.storeThree a b c).mem.read (s.dataCell 1) = b ∧
    (s.storeThree a b c).mem.read (s.dataCell 2) = c := by
  have h0 := s.wf_memWrite h (s.ea 0) a
  have h1 := State.wf_memWrite _ h0 (s.ea 1) b
  have hread : ∀ k < 4096, (s.storeThree a b c).mem.read (s.dataCell k) =
      if k = 2 then c else if k = 1 then b else if k = 0 then a else s.mem.read (s.dataCell k) := by
    intro k hk
    rw [State.storeThree, s.read_memWrite_ea _ h1 (by decide) hk, s.read_memWrite_ea _ h0 (by decide) hk,
      s.read_memWrite_ea s h (by decide) hk]
  exact ⟨hread 0 (by decide), hread 1 (by decide), hread 2 (by decide)⟩

/-- The last access is the one with the highest address. -/
theorem State.storeThree_raises (s : State) (a b c : Byte) :
    RaisesIf (s.i.toNat + 2 > 4095) .memoryOutOfRange s (s.storeThree a b c) := by
  refine .congr ?_ (((s.memWrite_raises _ a).trans (State.memWrite_raises _ _ b)).trans (State.memWrite_raises _ _ c))
  simp only [State.ea]
  omega

theorem State.storeThree_keeps (s : State) (a b c : Byte) :
    KeepsAllBut (fun p => (∃ n : Fin 4096, (∃ k < 3, n.val = s.dataCell k) ∧ p = .mem n) ∨ p = .stepErr) s
      (s.storeThree a b c) := by
  have hstore : ∀ (t : State) (k : Nat) (v : Byte), k < 3 →
      KeepsAllBut (fun p => (∃ n : Fin 4096, (∃ k < 3, n.val = s.dataCell k) ∧ p = .mem n) ∨ p = .stepErr) t
        (t.memWrite (s.ea k) v) :=
    fun t k v hk => (t.memWrite_keeps (s.ea k) v).mono fun p hp => hp.imp_left fun ⟨n, hn, hpn⟩ => ⟨n, ⟨k, hk, hn⟩, hpn⟩
  exact ((hstore _ 0 a (by decide)).trans (hstore _ 1 b (by decide))).trans (hstore _ 2 c (by decide))

/-- Settles O35: the handler is one `storeThree` of the three digits. -/
theorem bcdStoresThreeDigits : Obligations.BcdStoresThreeDigits := by
  refine ⟨.of_groupF 0x33#8 rfl fun w hk => by simp only [decodeGroupF, hk], fun s x h => ?_⟩
  obtain ⟨h0, h1, h2⟩ := s.storeThree_values h (hundreds (s.getV x)) (tens (s.getV x)) (units (s.getV x))
  refine ⟨_, exec_ldB x s, ?hundreds, ?tens, ?units, ?sum, s.storeThree_raises _ _ _, s.storeThree_keeps _ _ _⟩
  case hundreds => rw [h0, hundreds_toNat]
  case tens => rw [h1, tens_toNat]
  case units => rw [h2, units_toNat]
  case sum =>
    rw [h0, h1, h2, hundreds_toNat, tens_toNat, units_toNat]
    omega

/-! ### Fx55 (R194) -/

/-- Of the accesses of V0 to Vx the last one has the highest address (R250). -/
theorem State.exists_regsUpTo_ea (s : State) (x : Reg) :
    (∃ r ∈ regsUpTo x, s.ea r.val > 4095) ↔ s.i.toNat + x.val > 4095 := by
  simp only [mem_regsUpTo, State.ea]
  constructor
  · rintro ⟨r, hr, h⟩
    have hrx : r.val ≤ x.val := hr
    omega
  · exact fun h => ⟨x, le_rfl, h⟩

theorem exec_storeRegs (x : Reg) (s : State) : exec (.storeRegs x) s = .next (State.storeAll s (regsUpTo x) s) := rfl

theorem State.storeAll_regsUpTo_values (s : State) (h : s.mem.wf) {x r : Reg} (hr : r ≤ x) :
    (State.storeAll s (regsUpTo x) s).mem.read (s.dataCell r.val) = s.getV r :=
  State.storeAll_values s _ s (nodup_regsUpTo x) h r ((mem_regsUpTo x r).2 hr)

theorem State.storeAll_raises (s0 : State) (rs : List Reg) (s : State) :
    RaisesIf (∃ r ∈ rs, s0.ea r.val > 4095) .memoryOutOfRange s (State.storeAll s0 rs s) := by
  obtain ⟨m, hm, -⟩ := State.storeAll_frame s0 rs s
  rw [hm, RaisesIf]

theorem State.storeAll_regsUpTo_keeps (s : State) (x : Reg) :
    KeepsAllBut (fun c => (∃ a : Fin 4096, (∃ k ≤ x.val, a.val = s.dataCell k) ∧ c = .mem a) ∨ c = .stepErr) s
      (State.storeAll s (regsUpTo x) s) := by
  obtain ⟨m, hm, -, hout⟩ := State.storeAll_frame s (regsUpTo x) s
  rw [hm]
  intro c hc
  cases c with
  | mem a =>
    refine (hout a.val fun r hr ha => hc (.inl ⟨a, ⟨r.val, ?_, ha⟩, rfl⟩)).symm
    exact (mem_regsUpTo x r).1 hr
  | stepErr => exact absurd (.inr rfl) hc
  | _ => rfl

/-- Settles O36: the handler is `storeAll` of the registers up to x. -/
theorem registerStoreWritesConsecutiveCells : Obligations.RegisterStoreWritesConsecutiveCells :=
  ⟨.of_groupF 0x55#8 rfl fun w hk => by simp only [decodeGroupF, hk],
    fun s x h => ⟨_, exec_storeRegs x s, fun _ hr => s.storeAll_regsUpTo_values h hr,
      .congr (s.exists_regsUpTo_ea x) (State.storeAll_raises s _ s), s.storeAll_regsUpTo_keeps x⟩⟩

/-! ### Fx65 (R195) -/

theorem exec_loadRegs (x : Reg) (s : State) : exec (.loadRegs x) s = .next (State.loadAll (regsUpTo x) s) := rfl

theorem State.loadAll_regsUpTo_values (s : State) {x r : Reg} (hr : r ≤ x) :
    (State.loadAll (regsUpTo x) s).getV r = s.mem.read (s.dataCell r.val) := by
  obtain ⟨v, hv, hin, -⟩ := State.loadAll_spec (regsUpTo x) s (nodup_regsUpTo x)
  rw [hv]
  exact hin r ((mem_regsUpTo x r).2 hr)

theorem State.loadAll_regsUpTo_raises (s : State) (x : Reg) :
    RaisesIf (s.i.toNat + x.val > 4095) .memoryOutOfRange s (State.loadAll (regsUpTo x) s) := by
  obtain ⟨v, hv, -⟩ := State.loadAll_spec (regsUpTo x) s (nodup_regsUpTo x)
  refine .congr (s.exists_regsUpTo_ea x) ?_
  rw [hv, RaisesIf]

theorem State.loadAll_regsUpTo_keeps (s : State) (x : Reg) :
    KeepsAllBut (fun c => (∃ r, r ≤ x ∧ c = .v r) ∨ c = .stepErr) s (State.loadAll (regsUpTo x) s) := by
  obtain ⟨v, hv, -, hout⟩ := State.loadAll_spec (regsUpTo x) s (nodup_regsUpTo x)
  rw [hv]
  intro c hc
  cases c with
  | v r => exact (hout r fun hr => hc (.inl ⟨r, (mem_regsUpTo x r).1 hr, rfl⟩)).symm
  | stepErr => exact absurd (.inr rfl) hc
  | _ => rfl

/-- With the memory that the stores left and their I, the loads use the cells of the stores. -/
theorem State.loadAll_restores_storeAll (s u : State) (h : s.mem.wf) {x r : Reg} (hr : r ≤ x)
    (hmem : u.mem = (State.storeAll s (regsUpTo x) s).mem) (hi : u.i = s.i) :
    (State.loadAll (regsUpTo x) u).getV r = s.getV r := by
  have hcell : u.dataCell r.val = s.dataCell r.val := by rw [State.dataCell, State.dataCell, State.ea, State.ea, hi]
  rw [State.loadAll_regsUpTo_values u hr, hmem, hcell, s.storeAll_regsUpTo_values h hr]

/-- Settles O37: the handler is `loadAll` of the registers up to x, which reads the cells that Fx55 wrote. -/
theorem registerLoadReadsConsecutiveCells : Obligations.RegisterLoadReadsConsecutiveCells := by
  refine ⟨.of_groupF 0x65#8 rfl fun w hk => by simp only [decodeGroupF, hk], fun s x => ?loads,
    fun s t u x h hst hmem hi => ?restores⟩
  case loads =>
    exact ⟨_, exec_loadRegs x s, fun _ hr => s.loadAll_regsUpTo_values hr, s.loadAll_regsUpTo_raises x,
      s.loadAll_regsUpTo_keeps x⟩
  case restores =>
    cases hst
    exact ⟨_, exec_loadRegs x u, fun _ hr => s.loadAll_restores_storeAll u h hr hmem hi⟩

end Sys2Proof.Machine
end

section
/-! PROOF. Display (44_display.md R210): the clearing of the framebuffer, with the words that decode to it and its frame. -/

namespace Sys2Proof.Machine

/-! ### A framebuffer in a frame -/

theorem State.withFb_keeps (s : State) (fb : Framebuffer) :
    KeepsAllBut (fun c => ∃ cx cy, c = .fb cx cy) s { s with fb := fb } := by
  intro c hc
  cases c with
  | fb cx cy => exact absurd ⟨cx, cy, rfl⟩ hc
  | _ => rfl

/-! ### 00E0 (R210) -/

theorem exec_cls (s : State) : exec .cls s = .next { s with fb := Framebuffer.clear } := rfl

/-- Settles O38: the handler replaces the framebuffer by the clear one, and group 0 answers it for every low nibble 0. -/
theorem clearScreenClearsEveryCell : Obligations.ClearScreenClearsEveryCell := by
  refine ⟨.of_selectorN 0x0#4 0x0#4 rfl ?decodes, fun s => ⟨_, exec_cls s, ?clear, s.withFb_keeps _⟩⟩
  case decodes =>
    intro w hp hn
    simp only [decodeWord_of_group0 hp, decodeGroup0, hn]
  case clear =>
    intro cx cy
    exact Framebuffer.cell_clear cx.val cy.val

end Sys2Proof.Machine
end

section
/-! PROOF. Keypad and timers (45_keypad_timers.md R230 to R236): the key skips, the moves between Vx and a timer with the tick
that follows them, and the wait for a key, each with the words that decode to it and its frame. -/

namespace Sys2Proof.Machine

/-! ### Ex9E and ExA1 (R230, R231) -/

/-- A row of group E: what the group answers on the row's low nibble. -/
theorem RowDecodes.of_groupE {bits : Word} {f : Word → Instr} (n : BitVec 4) (hb : bits = formatXYN 0xE#4 0 0 n)
    (h : ∀ w, selectorN w = n → decodeGroupE w = f w) : RowDecodes 0xF00F#16 bits f :=
  .of_selectorN 0xE#4 n hb fun w hp hn => (decodeWord_of_groupE hp).trans (h w hn)

theorem exec_skp (x : Reg) (s : State) :
    exec (.skp x) s = .next (s.skipIf (s.keyDown (keyIndex (s.getV x)))) := rfl

theorem exec_sknp (x : Reg) (s : State) :
    exec (.sknp x) s = .next (s.skipIf (!s.keyDown (keyIndex (s.getV x)))) := rfl

/-- The upper four bits of the byte are ignored (R236). -/
theorem keyIndex_val (b : Byte) : (keyIndex b).val = b.toNat % 16 := by
  show (b.extractLsb' 0 4).toNat = b.toNat % 16
  rw [BitVec.extractLsb'_toNat, Nat.shiftRight_zero]

theorem keyIndex_eq {b : Byte} {k : Key} (hk : k.val = b.toNat % 16) : keyIndex b = k :=
  Fin.ext ((keyIndex_val b).trans hk.symm)

theorem State.skipIf_not_pc_toNat (s : State) (c : Bool) :
    (s.skipIf (!c)).pc.toNat = (s.pc.toNat + if c then 0 else 2) % 65536 := by
  rw [State.skipIf_pc_toNat]
  cases c with
  | false => rfl
  | true => rfl

/-- Settles O42: each handler is one `skipIf`, on the key of the low four bits or its negation. -/
theorem keySkipsTestTheLatch : Obligations.KeySkipsTestTheLatch := by
  refine ⟨.of_groupE 0xE#4 rfl fun w hn => by simp only [decodeGroupE, hn],
    .of_groupE 0x1#4 rfl fun w hn => by simp only [decodeGroupE, hn],
    fun s x k hk => ?_⟩
  rw [exec_skp, exec_sknp, keyIndex_eq hk]
  exact ⟨⟨_, rfl, s.skipIf_keeps _, s.skipIf_pc_toNat (s.keyDown k)⟩,
    ⟨_, rfl, s.skipIf_keeps _, s.skipIf_not_pc_toNat (s.keyDown k)⟩⟩

/-! ### Fx07, Fx15 and Fx18 (R232, R234, R235) -/

theorem exec_ldVxDt (x : Reg) (s : State) : exec (.ldVxDt x) s = .next (s.setV x s.dt) := rfl

theorem exec_ldDtVx (x : Reg) (s : State) : exec (.ldDtVx x) s = .next (s.setDt (s.getV x)) := rfl

theorem exec_ldStVx (x : Reg) (s : State) : exec (.ldStVx x) s = .next (s.setSt (s.getV x)) := rfl

@[simp] theorem State.beginStep_getV (s : State) (rnd : Byte) (x : Reg) : (s.beginStep rnd).getV x = s.getV x :=
  (s.beginStep_keeps rnd (.v x) (by simp)).symm

@[simp] theorem State.endStep_getV (s : State) (x : Reg) : s.endStep.getV x = s.getV x := rfl

/-- Settles O43: each handler is one write of a register or a timer, between the opening and the closing of the Step. -/
theorem timerMovesMeetTheTick : Obligations.TimerMovesMeetTheTick := by
  refine ⟨.of_groupF 0x07#8 rfl fun w hk => by simp only [decodeGroupF, hk],
    .of_groupF 0x15#8 rfl fun w hk => by simp only [decodeGroupF, hk],
    .of_groupF 0x18#8 rfl fun w hk => by simp only [decodeGroupF, hk],
    fun s x => ?handlers, fun rnd s x => ?step⟩
  case handlers =>
    exact ⟨⟨_, exec_ldVxDt x s, s.getV_setV_same x _, s.setV_keeps x _⟩, ⟨_, exec_ldDtVx x s, rfl, s.setDt_keeps _⟩,
      ⟨_, exec_ldStVx x s, rfl, s.setSt_keeps _⟩⟩
  case step =>
    obtain ⟨u, hu⟩ := exec_completes (decodeWord s.opcode) (s.beginStep rnd)
    refine ⟨u.endStep, _, stepWith_of_exec hu, fun hw => ?ldVxDt, fun hw => ?ldDtVx, fun hw => ?ldStVx⟩
    case ldVxDt =>
      rw [hw, exec_ldVxDt] at hu
      cases hu
      simp [tickByte_toNat]
    case ldDtVx =>
      rw [hw, exec_ldDtVx] at hu
      cases hu
      simp [tickByte_toNat]
    case ldStVx =>
      rw [hw, exec_ldStVx] at hu
      cases hu
      simp [tickByte_toNat]

/-! ### Fx0A (R233) -/

theorem exec_ldVxK_of_no_key (x : Reg) (s : State) (h : ∀ k, s.keyDown k = false) :
    exec (.ldVxK x) s = .next s.rollBackPc := by
  rw [exec, execLdVxK, s.lowestKey_none.2 h]

theorem exec_ldVxK_of_lowest_key (x : Reg) (s : State) {k : Key} (hk : s.keyDown k = true)
    (hmin : ∀ j < k, s.keyDown j = false) : exec (.ldVxK x) s = .next (s.setV x (BitVec.ofNat 8 k.val)) := by
  rw [exec, execLdVxK, s.lowestKey_some hk hmin]

theorem State.rollBackPc_pc_toNat (s : State) : s.rollBackPc.pc.toNat = (s.pc.toNat + 65534) % 65536 := by
  rw [State.rollBackPc_pc, BitVec.toNat_sub, Nat.add_comm]
  rfl

theorem State.rollBackPc_keeps (s : State) : KeepsAllBut (· = .pc) s s.rollBackPc := s.setPc_keeps _

/-- The roll-back undoes the fetch advance. -/
theorem State.beginStep_rollBackPc_pc (s : State) (rnd : Byte) : (s.beginStep rnd).rollBackPc.pc = s.pc := by
  rw [State.rollBackPc_pc, State.beginStep_pc, BitVec.add_sub_cancel]

@[simp] theorem State.beginStep_keyDown (s : State) (rnd : Byte) (k : Key) : (s.beginStep rnd).keyDown k = s.keyDown k :=
  (s.beginStep_keeps rnd (.key k) (by simp)).symm

/-- Between two states with the same PC, no frame need except PC. -/
theorem KeepsAllBut.of_pc_eq {p : Component → Prop} {s t : State} (hpc : s.pc = t.pc)
    (h : KeepsAllBut (fun c => p c ∨ c = .pc) s t) : KeepsAllBut p s t := by
  intro c hc
  by_cases hcpc : c = .pc
  · subst hcpc; exact hpc
  · exact h c (by simp [hc, hcpc])

/-- Opening, roll-back and closing together leave PC, so a waiting Step changes no more than a closing does. -/
theorem waitStep_keeps (s : State) (rnd : Byte) :
    KeepsAllBut (· ∈ [.dt, .st, .err, .stepErr, .rnd]) s (s.beginStep rnd).rollBackPc.endStep := by
  have hopen := s.beginStep_keeps rnd
  have hroll := (s.beginStep rnd).rollBackPc_keeps
  have hclose := (s.beginStep rnd).rollBackPc.endStep_keeps
  refine .of_pc_eq (s.beginStep_rollBackPc_pc rnd).symm (((hopen.mono ?_).trans (hroll.mono ?_)).trans (hclose.mono ?_))
  · simp
  · simp
  · simp

/-- Settles O44: the handler is `rollBackPc` with no key pressed, and one `setV` of the lowest pressed key otherwise. -/
theorem keyWaitRollsBackOrTakesTheLowestKey : Obligations.KeyWaitRollsBackOrTakesTheLowestKey := by
  refine ⟨.of_groupF 0x0A#8 rfl fun w hk => by simp only [decodeGroupF, hk], fun s x h => ?waits,
    fun s x k hk hmin => ?takes, fun rnd s x h hw => ?step⟩
  case waits => exact ⟨_, exec_ldVxK_of_no_key x s h, s.rollBackPc_pc_toNat, s.rollBackPc_keeps⟩
  case takes =>
    refine ⟨_, exec_ldVxK_of_lowest_key x s hk hmin, ?_, s.setV_keeps x _⟩
    rw [State.getV_setV_same, BitVec.toNat_ofNat]
    omega
  case step =>
    have hexec : exec (decodeWord s.opcode) (s.beginStep rnd) = .next (s.beginStep rnd).rollBackPc := by
      rw [hw, exec_ldVxK_of_no_key]
      simpa using h
    refine ⟨_, _, stepWith_of_exec hexec, s.beginStep_rollBackPc_pc rnd, ?dt, ?st, waitStep_keeps s rnd⟩
    case dt => rw [State.endStep_dt, State.rollBackPc_dt, State.beginStep_dt, tickByte_toNat]
    case st => rw [State.endStep_st, State.rollBackPc_st, State.beginStep_st, tickByte_toNat]

end Sys2Proof.Machine
end

section
/-! PROOF. What a handler adds to STEP_ERR, said once for every instruction (60_exceptions.md R250), and the step report
that comes of it (R251). -/

namespace Sys2Proof.Machine

/-! ### The bits of STEP_ERR (R250) -/

/-- The column "bit" of R250's table. -/
def StepError.index : StepError → Nat
  | .unknownOpcode => 0
  | .stackOverflow => 1
  | .stackUnderflow => 2
  | .memoryOutOfRange => 3

/-- Each kind has a bit of its own. -/
theorem StepError.getLsbD_bit_index (e e' : StepError) : e.bit.getLsbD e'.index = true ↔ e = e' := by
  cases e <;> cases e' <;> decide

theorem RaisesIf.getLsbD_err {c : Prop} [Decidable c] {e : StepError} {s t : State} (h : RaisesIf c e s t)
    (e' : StepError) :
    t.cur.err.getLsbD e'.index = true ↔ s.cur.err.getLsbD e'.index = true ∨ c ∧ e = e' := by
  rw [h, BitVec.getLsbD_or, Bool.or_eq_true, ← StepError.getLsbD_bit_index]
  by_cases hc : c
  · simp [hc]
  · simp [hc]

/-- The fetch raises MemoryOutOfRange alone (R66). -/
theorem State.getLsbD_beginStep_err (s : State) (rnd : Byte) (e : StepError) :
    (s.beginStep rnd).cur.err.getLsbD e.index = true ↔ s.pc.toNat + 1 > 4095 ∧ .memoryOutOfRange = e := by
  rw [State.beginStep_cur, ← StepError.getLsbD_bit_index]
  by_cases hfetch : s.pc.toNat + 1 > 4095
  · simp [hfetch]
  · simp [hfetch]

/-! ### Operations that raise a kind, and those that raise none -/

theorem RaisesIf.of_not {c : Prop} [Decidable c] {e : StepError} {s t : State} (hc : ¬ c) (hcur : t.cur = s.cur) :
    RaisesIf c e s t := by
  rw [RaisesIf, if_neg hc, BitVec.or_zero, hcur]

theorem State.raise_raises {c : Prop} [Decidable c] (hc : c) (s : State) (e : StepError) : RaisesIf c e s (s.raise e) := by
  rw [RaisesIf, if_pos hc, State.raise_cur]

/-- Of the accesses 0 to n the last one has the highest address (R77). -/
theorem State.exists_ea_iff (s : State) (n : Nat) : (∃ k ≤ n, s.ea k > 4095) ↔ s.i.toNat + n > 4095 := by
  constructor
  · rintro ⟨k, hk, h⟩
    rw [State.ea] at h
    omega
  · exact fun h => ⟨n, le_rfl, h⟩

theorem accessesOutOfRange_ldB (s : State) (x : Reg) : accessesOutOfRange s (.ldB x) ↔ s.i.toNat + 2 > 4095 := by
  rw [← s.exists_ea_iff 2]
  simp only [accessesOutOfRange, Nat.lt_succ_iff]

/-- A clipped row is not read, so its address is not checked (R211). -/
theorem State.drawRows_raises (x0 y0 n : Nat) (s : State) :
    RaisesIf (∃ r < n, y0 + r ≤ 31 ∧ s.ea r > 4095) .memoryOutOfRange s (State.drawRows x0 y0 (List.range n) s) := by
  obtain ⟨-, -, hframe⟩ := State.drawRows_spec x0 y0 (List.range n) s List.pairwise_lt_range
  rw [hframe, RaisesIf]
  simp only [List.mem_range, State.ea]
  congr

/-! ### The one kind that a handler can raise, and when (R250, R256) -/

/-- The column "kind" of R250's table; the condition of an instruction that the table does not name is never met. -/
def handlerError : Instr → StepError
  | .undef _ => .unknownOpcode
  | .call _ => .stackOverflow
  | .ret => .stackUnderflow
  | _ => .memoryOutOfRange

/-- The column "when" of R250's table. -/
def handlerFails (s : State) : Instr → Prop
  | .undef _ => True
  | .call _ => s.sp.val = 16
  | .ret => s.sp.val = 0
  | i => accessesOutOfRange s i

/-- Only UNDEF, 2nnn, 00EE and the four instructions with data accesses have a condition; every other handler leaves the
scratch of the Step alone. -/
theorem exec_raises {i : Instr} {s t : State} [Decidable (handlerFails s i)] (h : exec i s = .next t) :
    RaisesIf (handlerFails s i) (handlerError i) s t := by
  cases i with
  | undef w => cases h; exact State.raise_raises (c := handlerFails s (.undef w)) trivial s _
  | call nnn =>
    obtain ⟨k, hsp⟩ | hsp := sp_slot_or_full s.sp
    · rw [exec_call_of_room s nnn hsp] at h
      cases h
      exact .of_not (fun hfull : s.sp.val = 16 => by omega) rfl
    · rw [exec_call_of_full s nnn hsp] at h
      cases h
      exact State.raise_raises (c := handlerFails s (.call nnn)) hsp s _
  | ret =>
    obtain hsp | ⟨k, hsp⟩ := sp_zero_or_succ s.sp
    · rw [exec_ret_of_empty s hsp] at h
      cases h
      exact State.raise_raises (c := handlerFails s .ret) hsp s _
    · rw [exec_ret_of_some s hsp] at h
      cases h
      exact .of_not (fun hempty : s.sp.val = 0 => by omega) rfl
  | ldB x => cases h; exact .congr (accessesOutOfRange_ldB s x).symm (s.storeThree_raises _ _ _)
  | storeRegs x =>
    cases h
    exact .congr ((s.exists_regsUpTo_ea x).trans (s.exists_ea_iff x.val).symm) (State.storeAll_raises s _ s)
  | loadRegs x => cases h; exact .congr (s.exists_ea_iff x.val).symm (s.loadAll_regsUpTo_raises x)
  | drw x y n =>
    cases h
    refine .congr ?_ (State.drawRows_raises _ (startRow (s.getV y)) n.val (s.setV VF 0#8))
    exact Iff.rfl
  | seByte | sneByte | seReg | sneReg | skp | sknp => cases h; exact .of_not id (by rw [State.skipIf_eq])
  | ldVxK x =>
    rw [exec, execLdVxK] at h
    split at h
    · cases h; exact .of_not id rfl
    · cases h; exact .of_not id rfl
  | _ => cases h; exact .of_not id rfl

/-- The opening of a Step changes nothing that a handler's condition is about. -/
theorem handlerFails_beginStep (s : State) (rnd : Byte) (i : Instr) :
    handlerFails (s.beginStep rnd) i ↔ handlerFails s i := by
  rw [State.beginStep_eq]
  cases i with
  | _ => exact Iff.rfl

/-- A kind is reported if the fetch raised it or the handler did. -/
theorem getLsbD_err_of_exec {rnd : Byte} {i : Instr} {s u : State} (h : exec i (s.beginStep rnd) = .next u)
    (e : StepError) : u.cur.err.getLsbD e.index = true ↔
      (s.pc.toNat + 1 > 4095 ∧ .memoryOutOfRange = e) ∨ (handlerFails s i ∧ handlerError i = e) := by
  classical
  rw [(exec_raises h).getLsbD_err, State.getLsbD_beginStep_err, handlerFails_beginStep]

/-! ### Which handlers raise a kind (R250) -/

theorem handler_raises_unknownOpcode (s : State) (i : Instr) :
    handlerFails s i ∧ handlerError i = .unknownOpcode ↔ ∃ w, i = .undef w := by
  cases i with
  | undef w => exact iff_of_true ⟨trivial, rfl⟩ ⟨w, rfl⟩
  | _ => exact iff_of_false (fun h => nomatch h.2) (fun ⟨_, h⟩ => nomatch h)

theorem handler_raises_stackOverflow (s : State) (i : Instr) :
    handlerFails s i ∧ handlerError i = .stackOverflow ↔ ∃ nnn, i = .call nnn ∧ s.sp.val = 16 := by
  cases i with
  | call nnn => exact ⟨fun h => ⟨nnn, rfl, h.1⟩, fun ⟨_, _, hsp⟩ => ⟨hsp, rfl⟩⟩
  | _ => exact iff_of_false (fun h => nomatch h.2) (fun ⟨_, h, _⟩ => nomatch h)

theorem handler_raises_stackUnderflow (s : State) (i : Instr) :
    handlerFails s i ∧ handlerError i = .stackUnderflow ↔ i = .ret ∧ s.sp.val = 0 := by
  cases i with
  | ret => exact ⟨fun h => ⟨rfl, h.1⟩, fun ⟨_, hsp⟩ => ⟨hsp, rfl⟩⟩
  | _ => exact iff_of_false (fun h => nomatch h.2) (fun h => nomatch h.1)

theorem handler_raises_memoryOutOfRange (s : State) (i : Instr) :
    handlerFails s i ∧ handlerError i = .memoryOutOfRange ↔ accessesOutOfRange s i := by
  cases i with
  | undef | call | ret => exact iff_of_false (fun h => nomatch h.2) id
  | _ => exact and_iff_left rfl

/-- Settles O11: a kind's bit comes of the fetch, which raises MemoryOutOfRange alone, or of the handler. -/
theorem stepReportNamesTheErrors : Obligations.StepReportNamesTheErrors := by
  intro rnd s
  obtain ⟨u, hu⟩ := exec_completes (decodeWord s.opcode) (s.beginStep rnd)
  have hreport := getLsbD_err_of_exec hu
  refine ⟨_, _, stepWith_of_exec hu, rfl, rfl, ?unknownOpcode, ?overflow, ?underflow, ?outOfRange⟩
  case unknownOpcode => exact (hreport .unknownOpcode).trans (by simp [handler_raises_unknownOpcode])
  case overflow => exact (hreport .stackOverflow).trans (by simp [handler_raises_stackOverflow])
  case underflow => exact (hreport .stackUnderflow).trans (by simp [handler_raises_stackUnderflow])
  case outOfRange => exact (hreport .memoryOutOfRange).trans (by simp [handler_raises_memoryOutOfRange])

end Sys2Proof.Machine
end

section
/-! PROOF. The host's LoadRom (60_exceptions.md R292, R293): a buffer that fits from 0x200 to the end of memory is copied
there, a longer one is rejected whole and only reported in ERR. -/

namespace Sys2Proof.Machine

/-! ### The two branches of LoadRom -/

theorem State.loadRom_of_fits (s : State) {bytes : List Byte} (h : bytes.length ≤ 3584) :
    s.loadRom bytes = ({ s with mem := s.mem.writeBytes 0x200 bytes }, .ok) := if_pos h

theorem State.loadRom_of_too_long (s : State) {bytes : List Byte} (h : 3584 < bytes.length) :
    s.loadRom bytes = ({ s with err := s.err ||| romLoadFailedBit }, .romLoadFailed) := if_neg (Nat.not_le_of_gt h)

theorem hostMove_loadRom (fbSetValue : Nat) {s t : State} {bytes : List Byte} {r : LoadResult}
    (h : s.loadRom bytes = (t, r)) : hostMove fbSetValue (.loadRom bytes) s = .next (t, .load r) := by
  rw [hostMove, h]

/-! ### Bytes copied to consecutive cells -/

theorem Memory.read_writeBytes_getElem {m : Memory} (h : m.wf) {bytes : List Byte} {a : Nat}
    (hfit : a + bytes.length ≤ Config.memSize) {j : Nat} (hj : j < bytes.length) :
    (m.writeBytes a bytes).read (a + j) = bytes[j] := by
  rw [Memory.read_writeBytes h bytes a _ hfit, if_pos ⟨Nat.le_add_right a j, Nat.add_lt_add_left hj a⟩,
    Nat.add_sub_cancel_left, List.getD_eq_getElem _ _ hj]

theorem State.withWriteBytes_keeps (s : State) (h : s.mem.wf) {bytes : List Byte} {a : Nat}
    (hfit : a + bytes.length ≤ Config.memSize) :
    KeepsAllBut (fun c => ∃ n : Fin 4096, a ≤ n.val ∧ n.val < a + bytes.length ∧ c = .mem n) s
      { s with mem := s.mem.writeBytes a bytes } := by
  intro c hc
  cases c with
  | mem n =>
    have hout : ¬(a ≤ n.val ∧ n.val < a + bytes.length) := fun ⟨hle, hlt⟩ => hc ⟨n, hle, hlt, rfl⟩
    exact ((Memory.read_writeBytes h bytes a n.val hfit).trans (if_neg hout)).symm
  | _ => rfl

/-! ### A report in ERR -/

theorem State.withErr_keeps (s : State) (e : BitVec 5) : KeepsAllBut (· = .err) s { s with err := e } := by
  intro c hc
  cases c with
  | err => exact absurd rfl hc
  | _ => rfl

/-- Settles O48: a buffer of at most 3584 bytes ends at or below the end of memory, so none of its cells wraps round and
each holds its own byte; a longer one changes ERR alone. -/
theorem loadRomCopiesOrRejects : Obligations.LoadRomCopiesOrRejects := by
  intro fbSetValue s bytes hwf
  refine ⟨fun hlen => ?copies, fun hlen => ?rejects⟩
  case copies =>
    have hfit : 0x200 + bytes.length ≤ Config.memSize := Nat.add_le_add_left hlen 0x200
    exact ⟨_, hostMove_loadRom fbSetValue (s.loadRom_of_fits hlen), fun _ hj => Memory.read_writeBytes_getElem hwf hfit hj,
      s.withWriteBytes_keeps hwf hfit⟩
  case rejects =>
    exact ⟨_, hostMove_loadRom fbSetValue (s.loadRom_of_too_long hlen), rfl, s.withErr_keeps _⟩

end Sys2Proof.Machine
end

section
/-! PROOF. The decoder and the encoder against each other (30_encoding.md R90 to R98): decoding undoes encoding, what the
decoder answers is well-formed, the UNDEF words are R98's, and encoding a decoded word gives its canonical word. -/

namespace Sys2Proof

/-! ### Decoding an encoded instruction (R91 to R96) -/

@[simp] theorem selectorN_formatXK (p : BitVec 4) (x : Reg) (kk : Byte) :
    selectorN (formatXK p x kk) = kk.extractLsb' 0 4 := by
  rw [selectorN_eq_fieldKK, fieldKK_formatXK]

theorem decodeWord_group8 (x y : Reg) (n : BitVec 4) :
    decodeWord (formatXYN 0x8#4 x y n) = decodeGroup8 (formatXYN 0x8#4 x y n) :=
  decodeWord_of_group8 (fieldP_formatXYN _ x y n)

theorem decodeWord_groupE (x : Reg) (kk : Byte) :
    decodeWord (formatXK 0xE#4 x kk) = decodeGroupE (formatXK 0xE#4 x kk) :=
  decodeWord_of_groupE (fieldP_formatXK _ x kk)

theorem decodeWord_groupF (x : Reg) (kk : Byte) :
    decodeWord (formatXK 0xF#4 x kk) = decodeGroupF (formatXK 0xF#4 x kk) :=
  decodeWord_of_groupF (fieldP_formatXK _ x kk)

/-- The selectors and the operands of an encoded word are the fields that its format was given. -/
theorem decodeWord_encodeWord {i : Instr} (h : i.wellFormed = true) : decodeWord (encodeWord i) = i := by
  cases i with
  | cls | ret => rfl
  | jp | call | ldI | jpV0 => simp [encodeWord, decodeWord]
  | seByte | sneByte | ldByte | addByte | rnd => simp [encodeWord, decodeWord]
  | seReg | sneReg | drw => simp [encodeWord, decodeWord]
  | ldReg | orReg | andReg | xorReg | addReg | subReg | shr | subnReg | shl =>
    simp [encodeWord, decodeWord_group8, decodeGroup8]
  | skp | sknp => simp [encodeWord, decodeWord_groupE, decodeGroupE]
  | ldVxDt | ldDtVx | ldStVx | ldVxK | addI | ldF | ldB | storeRegs | loadRegs =>
    simp [encodeWord, decodeWord_groupF, decodeGroupF]
  | undef w => exact Machine.decodeWord_of_isUndefWord h

/-- Settles O5: the two encoded bytes are those of `encodeWord i`, whose fields the decoder reads back. -/
theorem decodeOfEncodeIsIdentity : Obligations.DecodeOfEncodeIsIdentity := by
  intro i rest h
  rw [encode, List.cons_append, List.cons_append, List.nil_append, decode, wordOfBytes_bytes, decodeWord_encodeWord h]

/-! ### UNDEF words (R98) -/

/-- The low nibbles that group 8 does not answer. -/
theorem notMem_group8_iff : ∀ n : BitVec 4,
    n ∉ [0x0#4, 0x1#4, 0x2#4, 0x3#4, 0x4#4, 0x5#4, 0x6#4, 0x7#4, 0xE#4] ↔
      n ∈ [0x8#4, 0x9#4, 0xA#4, 0xB#4, 0xC#4, 0xD#4, 0xF#4] := by decide

theorem soleSelectors_ne_group : ∀ p ∈ soleSelectors, p ≠ 0x0#4 ∧ p ≠ 0x8#4 ∧ p ≠ 0xE#4 ∧ p ≠ 0xF#4 := by decide

theorem decodeWord_ne_undef_of_soleSelector {w : Word} (hp : fieldP w ∈ soleSelectors) : decodeWord w ≠ .undef w := by
  intro hu
  obtain ⟨r, hr, hm, hb⟩ := exists_row_of_soleSelector _ hp
  have hs : r.selects w = true := (OpcodeRow.selects_iff_fieldP hm hb w).2 rfl
  rw [selects_eq_false_of_undef hu hr] at hs
  cases hs

/-- R98's list (a) to (d): one set for each group of the dispatcher. -/
def InUndefSets (w : Word) : Prop :=
  (fieldP w = 0x0#4 ∧ selectorN w ≠ 0x0#4 ∧ selectorN w ≠ 0xE#4) ∨
  (fieldP w = 0x8#4 ∧ selectorN w ∈ [0x8#4, 0x9#4, 0xA#4, 0xB#4, 0xC#4, 0xD#4, 0xF#4]) ∨
  (fieldP w = 0xE#4 ∧ selectorN w ≠ 0x1#4 ∧ selectorN w ≠ 0xE#4) ∨
  (fieldP w = 0xF#4 ∧
    fieldKK w ∉ [0x07#8, 0x0A#8, 0x15#8, 0x18#8, 0x1E#8, 0x29#8, 0x33#8, 0x55#8, 0x65#8])

/-- By the primary selector: a sole selector is in no set and never UNDEF, a group answers all but the words of its set. -/
theorem decodeWord_eq_undef_iff (w : Word) : decodeWord w = .undef w ↔ InUndefSets w := by
  obtain hp | hp | hp | hp | hp := mem_soleSelectors_or_group (fieldP w)
  · have hne := soleSelectors_ne_group _ hp
    exact iff_of_false (decodeWord_ne_undef_of_soleSelector hp) (by simp [InUndefSets, hne])
  · rw [decodeWord_of_group0 hp, decodeGroup0_eq_undef_iff]
    simp [InUndefSets, hp]
  · rw [decodeWord_of_group8 hp, decodeGroup8_eq_undef_iff, notMem_group8_iff]
    simp [InUndefSets, hp]
  · rw [decodeWord_of_groupE hp, decodeGroupE_eq_undef_iff]
    simp [InUndefSets, hp]
  · rw [decodeWord_of_groupF hp, decodeGroupF_eq_undef_iff]
    simp [InUndefSets, hp]

theorem isUndefWord_iff (w : Word) : isUndefWord w = true ↔ InUndefSets w := by
  simp [isUndefWord, InUndefSets, fieldP, selectorN, fieldKK, or_assoc, and_assoc]

/-- Settles O4: each group answers all but the words of its set, and `isUndefWord` is the four sets by their fields. -/
theorem undefWordsAreThoseListed : Obligations.UndefWordsAreThoseListed :=
  fun w => ⟨decodeWord_eq_undef_iff w, (isUndefWord_iff w).trans (decodeWord_eq_undef_iff w).symm⟩

/-! ### What the decoder answers (R90, R98) -/

/-- Only the row of UNDEF has a condition. -/
theorem Instr.wellFormed_of_row_ne {i : Instr} (h : i.row ≠ 35) : i.wellFormed = true := by
  cases i with
  | undef w => exact absurd rfl h
  | _ => rfl

theorem opcodeRows_row_ne_35 : ∀ r ∈ opcodeRows, r.row ≠ 35 := by decide

theorem decodeWord_wellFormed (w : Word) : (decodeWord w).wellFormed = true := by
  obtain hu | ⟨r, hr, hs⟩ := eq_undef_or_exists_selects w
  · rw [hu]
    exact (isUndefWord_iff w).2 ((decodeWord_eq_undef_iff w).1 hu)
  · exact Instr.wellFormed_of_row_ne (row_eq_of_selects hr hs ▸ opcodeRows_row_ne_35 r hr)

/-- The decoder answers only on two bytes or more, and takes the first two. -/
theorem decode_eq_ok_iff {bytes rest : List Byte} {i : Instr} :
    decode bytes = .ok (i, rest) ↔ ∃ hi lo, bytes = hi :: lo :: rest ∧ i = decodeWord (wordOfBytes hi lo) := by
  constructor
  · intro h
    match bytes, h with
    | hi :: lo :: tail, h =>
      cases h
      exact ⟨hi, lo, rfl, rfl⟩
  · rintro ⟨hi, lo, rfl, rfl⟩
    rfl

/-- Settles O6: the decoder takes two bytes and answers the decoding of their word. -/
theorem decodedInstructionsAreWellFormed : Obligations.DecodedInstructionsAreWellFormed := by
  intro bytes rest i h
  obtain ⟨hi, lo, rfl, rfl⟩ := decode_eq_ok_iff.1 h
  exact ⟨decodeWord_wellFormed _, rfl⟩

/-! ### The canonical word (R96, R97) -/

/-- A word with the bits of `m` set as in `b` is its other bits and `b`. -/
theorem eq_or_of_and_eq {w m b : Word} (h : w &&& m = b) : w = (w &&& ~~~m) ||| b := by
  rw [← h]
  ext j hj
  by_cases hm : m[j] = true
  · simp [hm]
  · simp [hm]

/-- Outside the selectors of the mask 0xF00F a word has the fields x and y. -/
theorem formatXYN_fields (p n : BitVec 4) (w : Word) :
    formatXYN p (fieldX w) (fieldY w) n = (w &&& ~~~0xF00F#16) ||| formatXYN p 0 0 n := by
  have hm : ∀ j < 16, (0xF00F#16).getLsbD j = decide (j < 4 ∨ 12 ≤ j) := by decide
  apply BitVec.eq_of_getLsbD_eq
  intro j hj
  simp only [BitVec.getLsbD_or, BitVec.getLsbD_and, BitVec.getLsbD_not, hm j hj, getLsbD_formatXYN, fieldX, fieldY,
    BitVec.ofFin_toFin, BitVec.getLsbD_extractLsb']
  split_ifs with h4 h8 h12
  · simp [h4]
  · simp [h4, hj, show j - 4 < 4 by omega, show 4 + (j - 4) = j by omega, show ¬ 12 ≤ j by omega]
  · simp [h4, hj, show j - 8 < 4 by omega, show 8 + (j - 8) = j by omega, show ¬ 12 ≤ j by omega]
  · simp [show 12 ≤ j by omega]

/-- Outside the selectors of the mask 0xF0FF a word has the field x. -/
theorem formatXK_fieldX (p : BitVec 4) (kk : Byte) (w : Word) :
    formatXK p (fieldX w) kk = (w &&& ~~~0xF0FF#16) ||| formatXK p 0 kk := by
  have hm : ∀ j < 16, (0xF0FF#16).getLsbD j = decide (j < 8 ∨ 12 ≤ j) := by decide
  apply BitVec.eq_of_getLsbD_eq
  intro j hj
  simp only [BitVec.getLsbD_or, BitVec.getLsbD_and, BitVec.getLsbD_not, hm j hj, getLsbD_formatXK, fieldX,
    BitVec.ofFin_toFin, BitVec.getLsbD_extractLsb']
  split_ifs with h8 h12
  · simp [h8]
  · simp [h8, hj, show j - 8 < 4 by omega, show 8 + (j - 8) = j by omega, show ¬ 12 ≤ j by omega]
  · simp [show 12 ≤ j by omega]

theorem encodeWord_decodeGroup8 {w : Word} (hp : fieldP w = 0x8#4) : encodeWord (decodeGroup8 w) = w := by
  have hw := word_eq_formatXYN w
  rw [hp] at hw
  unfold decodeGroup8
  split
  case h_10 => rfl
  all_goals next h => rw [h] at hw; exact hw.symm

theorem encodeWord_decodeGroupF {w : Word} (hp : fieldP w = 0xF#4) : encodeWord (decodeGroupF w) = w := by
  have hw := word_eq_formatXK w
  rw [hp] at hw
  unfold decodeGroupF
  split
  case h_10 => rfl
  all_goals next h => rw [h] at hw; exact hw.symm

theorem ofFin_fieldN (w : Word) : (BitVec.ofFin (fieldN w) : BitVec 4) = selectorN w := rfl

/-- The primary selectors of the rows without aliases, by the format of their words (R92, R97). -/
theorem selector_cases : ∀ p ∉ [0x0#4, 0x5#4, 0x9#4, 0xE#4], p ∈ [0x1#4, 0x2#4, 0xA#4, 0xB#4] ∨
    p ∈ [0x3#4, 0x4#4, 0x6#4, 0x7#4, 0xC#4] ∨ p = 0xD#4 ∨ p = 0x8#4 ∨ p = 0xF#4 := by decide

/-- Where the dispatcher examines every bit that is no operand, the encoder gives the word back. -/
theorem encodeWord_decodeWord {w : Word} (hp : fieldP w ∉ [0x0#4, 0x5#4, 0x9#4, 0xE#4]) :
    encodeWord (decodeWord w) = w := by
  obtain h | h | h | h | h := selector_cases _ hp
  · have hw := (word_eq_formatA w).symm
    simp only [List.mem_cons, List.not_mem_nil, or_false] at h
    rcases h with h | h | h | h <;> simpa [encodeWord, decodeWord, h] using hw
  · have hw := (word_eq_formatXK w).symm
    simp only [List.mem_cons, List.not_mem_nil, or_false] at h
    rcases h with h | h | h | h | h <;> simpa [encodeWord, decodeWord, h] using hw
  · have hw := (word_eq_formatXYN w).symm
    simpa [encodeWord, decodeWord, h, ofFin_fieldN] using hw
  · rw [decodeWord_of_group8 h, encodeWord_decodeGroup8 h]
  · rw [decodeWord_of_groupF h, encodeWord_decodeGroupF h]

/-- The rows whose canonical pattern fixes more bits than the dispatcher examines: those that have aliases (R97). -/
def aliasRows : List OpcodeRow := [
  ⟨1, 0xF00F#16, 0x0000#16, 0xFFFF#16, 0x00E0#16⟩,
  ⟨2, 0xF00F#16, 0x000E#16, 0xFFFF#16, 0x00EE#16⟩,
  ⟨7, 0xF000#16, 0x5000#16, 0xF00F#16, 0x5000#16⟩,
  ⟨8, 0xF000#16, 0x9000#16, 0xF00F#16, 0x9000#16⟩,
  ⟨24, 0xF00F#16, 0xE00E#16, 0xF0FF#16, 0xE09E#16⟩,
  ⟨25, 0xF00F#16, 0xE001#16, 0xF0FF#16, 0xE0A1#16⟩]

theorem mem_aliasRows_or : ∀ r ∈ opcodeRows, r ∈ aliasRows ∨
    (r.canonicalMask = r.mask ∧ r.canonicalBits = r.bits ∧ fieldP r.bits ∉ [0x0#4, 0x5#4, 0x9#4, 0xE#4]) := by decide

/-- The rows' own instructions, as the statements on each of them say which words decode to it. -/
theorem encodeWord_decodeWord_of_aliasRow {w : Word} : ∀ r ∈ aliasRows, w &&& r.mask = r.bits →
    encodeWord (decodeWord w) = (w &&& ~~~r.canonicalMask) ||| r.canonicalBits := by
  obtain ⟨hcls, -⟩ := Machine.clearScreenClearsEveryCell
  obtain ⟨hret, -⟩ := Machine.returnPopsOrReportsUnderflow
  obtain ⟨-, -, hseReg, hsneReg, -⟩ := Machine.skipsCompareUnsignedBytes
  obtain ⟨hskp, hsknp, -⟩ := Machine.keySkipsTestTheLatch
  simp only [aliasRows, List.forall_mem_cons, List.not_mem_nil, false_imp_iff, implies_true, and_true]
  refine ⟨fun h => ?_, fun h => ?_, fun h => ?_, fun h => ?_, fun h => ?_, fun h => ?_⟩
  · rw [hcls w h]; simp [encodeWord]
  · rw [hret w h]; simp [encodeWord]
  · rw [hseReg w h]; exact formatXYN_fields 0x5#4 0x0#4 w
  · rw [hsneReg w h]; exact formatXYN_fields 0x9#4 0x0#4 w
  · rw [hskp w h]; exact formatXK_fieldX 0xE#4 0x9E#8 w
  · rw [hsknp w h]; exact formatXK_fieldX 0xE#4 0xA1#8 w

theorem fieldP_eq_of_selects {r : OpcodeRow} (hr : r ∈ opcodeRows) {w : Word} (hs : r.selects w = true) :
    fieldP w = fieldP r.bits := by
  obtain ⟨hm, hb, -⟩ | ⟨hm, hb, -⟩ | ⟨hm, hb, -⟩ := opcodeRows_shape r hr
  · exact (OpcodeRow.selects_iff_fieldP hm hb w).1 hs
  · exact ((OpcodeRow.selects_iff_selectorN hm hb w).1 hs).1
  · exact ((OpcodeRow.selects_iff_fieldKK hm hb w).1 hs).1

/-- Settles O3: a row without aliases fixes the bits that it examines, and its words are encoded as themselves; the six other
rows are their instructions' patterns. -/
theorem aliasesDecodeAsTheirCanonicalWord : Obligations.AliasesDecodeAsTheirCanonicalWord := by
  intro w r hr hs
  have hbits : w &&& r.mask = r.bits := by simpa [OpcodeRow.selects] using hs
  refine ⟨?_, decodeWord_encodeWord (decodeWord_wellFormed w)⟩
  obtain hr' | ⟨hm, hb, hp⟩ := mem_aliasRows_or r hr
  · exact encodeWord_decodeWord_of_aliasRow r hr' hbits
  · rw [← fieldP_eq_of_selects hr hs] at hp
    rw [encodeWord_decodeWord hp, hm, hb]
    exact eq_or_of_and_eq hbits

/-- Settles O1: fifteen closed decodings, each by evaluation. -/
theorem specWordsDecodeAsListed : Obligations.SpecWordsDecodeAsListed :=
  ⟨rfl, rfl, rfl, rfl, rfl, rfl, rfl, rfl, rfl, rfl, rfl, rfl, rfl, rfl, rfl⟩

end Sys2Proof
end

section
/-! PROOF. The invariant (10_state.md R29, R30, R33): it holds at reset, and every handler keeps the canonical form of memory,
so every step and every move of the host keeps it. -/

namespace Sys2Proof.Machine

/-! ### Reset -/

theorem State.wf_resetWith (font : Font) : (State.resetWith font).mem.wf :=
  Memory.wf_writeBytes Memory.wf_nil font.toList _ (by rw [font.length_toList]; decide)

/-- Settles O13: the reset memory lists nothing, or the bytes of the font table, written one after another. -/
theorem resetMeetsTheInvariant : Obligations.ResetMeetsTheInvariant :=
  ⟨⟨Memory.wf_nil, rfl⟩, fun font => ⟨State.wf_resetWith font, rfl⟩⟩

/-- The default font as a table of 80 bytes (R29). -/
def defaultFontTable : Font := ⟨defaultFont.toArray, rfl⟩

/-- Cells that hold the default font's bytes are as unlisted, and memory in canonical form lists no such cell. -/
theorem resetWith_defaultFontTable : State.resetWith defaultFontTable = State.reset := by
  have hmem : (State.resetWith defaultFontTable).mem = [] :=
    Memory.ext_read (State.wf_resetWith _) Memory.wf_nil fun a => State.resetWith_read defaultFontTable a
  exact congrArg (fun m => { State.reset with mem := m }) hmem

/-- Settles O47. -/
theorem resetStateIsResetWithTheDefaultFont : Obligations.ResetStateIsResetWithTheDefaultFont :=
  ⟨defaultFontTable, rfl, resetWith_defaultFontTable⟩

/-! ### The handlers -/

theorem State.wf_storeThree (s : State) (h : s.mem.wf) (a b c : Byte) : (s.storeThree a b c).mem.wf :=
  State.wf_memWrite _ (State.wf_memWrite _ (State.wf_memWrite _ h _ _) _ _) _ _

theorem State.wf_storeAll (s0 : State) (rs : List Reg) (s : State) (h : s.mem.wf) : (State.storeAll s0 rs s).mem.wf := by
  obtain ⟨m, hm, hwf, -⟩ := State.storeAll_frame s0 rs s
  rw [hm]
  exact hwf h

theorem State.loadAll_mem (s : State) (x : Reg) : (State.loadAll (regsUpTo x) s).mem = s.mem := by
  obtain ⟨v, hv, -⟩ := State.loadAll_spec (regsUpTo x) s (nodup_regsUpTo x)
  rw [hv]

theorem State.drawRows_mem (s : State) (x0 y0 n : Nat) : (State.drawRows x0 y0 (List.range n) s).mem = s.mem := by
  obtain ⟨-, -, hframe⟩ := State.drawRows_spec x0 y0 (List.range n) s List.pairwise_lt_range
  rw [hframe]

/-- Fx33 and Fx55 alone write memory, each by stores that keep the canonical form. -/
theorem exec_keeps_wf {i : Instr} {s t : State} (hs : s.mem.wf) (h : exec i s = .next t) : t.mem.wf := by
  cases i with
  | ldB x => cases h; exact s.wf_storeThree hs _ _ _
  | storeRegs x => cases h; exact State.wf_storeAll s _ s hs
  | loadRegs x => cases h; rw [State.loadAll_mem]; exact hs
  | drw x y n => cases h; rw [State.drawRows_mem]; exact hs
  | seByte | sneByte | seReg | sneReg | skp | sknp => cases h; rw [State.skipIf_eq]; exact hs
  | ret =>
    obtain hsp | ⟨k, hsp⟩ := sp_zero_or_succ s.sp
    · rw [exec_ret_of_empty s hsp] at h; cases h; exact hs
    · rw [exec_ret_of_some s hsp] at h; cases h; exact hs
  | call nnn =>
    obtain ⟨k, hsp⟩ | hsp := sp_slot_or_full s.sp
    · rw [exec_call_of_room s nnn hsp] at h; cases h; exact hs
    · rw [exec_call_of_full s nnn hsp] at h; cases h; exact hs
  | ldVxK x =>
    rw [exec, execLdVxK] at h
    split at h
    · cases h; exact hs
    · cases h; exact hs
  | _ => cases h; exact hs

/-! ### The Step and the host's moves -/

/-- The opening and the closing of a Step do not touch memory, and the closing drops the scratch. -/
theorem stepWith_keeps_inv {rnd : Byte} {s t : State} {r : StepReport} (hs : s.Inv) (h : stepWith rnd s = .next (t, r)) :
    t.Inv := by
  obtain ⟨hwf, -⟩ := hs
  obtain ⟨u, hu, rfl, -⟩ := exec_of_stepWith h
  have hopen : (s.beginStep rnd).mem.wf := by rwa [State.beginStep_eq]
  have hhandler : u.mem.wf := exec_keeps_wf hopen hu
  exact ⟨hhandler, rfl⟩

/-- Settles O14: a step is a Step with some RND input, on the state with one more draw, which has the same memory and
scratch. -/
theorem everyStepKeepsTheInvariant : Obligations.EveryStepKeepsTheInvariant := by
  intro s t hs h
  obtain ⟨r, hr⟩ := stepWith_of_step h
  have hdraw : s.draw.Inv := hs
  exact stepWith_keeps_inv hdraw hr

theorem State.loadRom_keeps_inv {s : State} (hs : s.Inv) (bytes : List Byte) : (s.loadRom bytes).1.Inv := by
  obtain ⟨hwf, hcur⟩ := hs
  obtain hlen | hlen := Nat.lt_or_ge 3584 bytes.length
  · rw [s.loadRom_of_too_long hlen]
    exact ⟨hwf, hcur⟩
  · rw [s.loadRom_of_fits hlen]
    exact ⟨Memory.wf_writeBytes hwf bytes _ (Nat.add_le_add_left hlen 0x200), hcur⟩

/-- What a Step handed to the host is, taken apart. -/
theorem stepWith_of_hostMove {fbSetValue : Nat} {rnd : Byte} {s t : State} {res : HostResult}
    (h : hostMove fbSetValue (.step rnd) s = .next (t, res)) : ∃ r, stepWith rnd s = .next (t, r) := by
  rw [hostMove] at h
  split at h
  · next hst => cases h; exact ⟨_, hst⟩
  · cases h
  · cases h

/-- Settles O15: Reset gives a state that meets the invariant, LoadRom writes cells below 4096, Step is that of O14, and the
other moves touch neither memory nor scratch. -/
theorem everyHostMoveKeepsTheInvariant : Obligations.EveryHostMoveKeepsTheInvariant := by
  intro fbSetValue m s t r hs h
  cases m with
  | reset font => cases h; exact ⟨State.wf_resetWith font, rfl⟩
  | loadRom bytes => cases h; exact State.loadRom_keeps_inv hs bytes
  | step rnd =>
    obtain ⟨rep, hst⟩ := stepWith_of_hostMove h
    exact stepWith_keeps_inv hs hst
  | _ => cases h; exact hs

end Sys2Proof.Machine
end

section
/-! PROOF. Dxyn (44_display.md R211, R212): the loops against the picture of the sprite, and the second draw of the same
sprite. -/

namespace Sys2Proof.Machine

/-! ### The draw and the picture -/

/-- What the handler of Dxyn draws: VF := 0, then the n sprite rows from the latched start position (R211). -/
def State.drawSprite (s : State) (x y : Reg) (n : Nat) : State :=
  State.drawRows (startColumn (s.getV x)) (startRow (s.getV y)) (List.range n) (s.setV VF 0#8)

theorem exec_drw (x y : Reg) (n : Fin 16) (s : State) : exec (.drw x y n) s = .next (s.drawSprite x y n.val) := rfl

/-- The picture that Dxyn draws on a state: the sprite's bit for a cell (R212). -/
def State.picture (s : State) (x y : Reg) (n cx cy : Nat) : Bool :=
  s.spriteBit ((s.getV x).toNat % 64) ((s.getV y).toNat % 32) n cx cy

/-- The clearing of VF changes no byte that the sprite is read from. -/
theorem State.rowsBit_setV_VF (s : State) (x y : Reg) (n cx cy : Nat) :
    (s.setV VF 0#8).rowsBit (startColumn (s.getV x)) (startRow (s.getV y)) (List.range n) cx cy = s.picture x y n cx cy :=
  State.rowsBit_range (s.setV VF 0#8) _ _ n cx cy

theorem State.drawSprite_cell (s : State) (x y : Reg) (n : Nat) (cx : Fin 64) (cy : Fin 32) :
    (s.drawSprite x y n).cell cx.val cy.val = (s.cell cx.val cy.val ^^ s.picture x y n cx.val cy.val) := by
  obtain ⟨hcell, -, -⟩ := State.drawRows_spec (startColumn (s.getV x)) (startRow (s.getV y)) (List.range n)
    (s.setV VF 0#8) List.pairwise_lt_range
  rw [State.drawSprite, hcell cx.val cy.val cx.isLt cy.isLt, State.rowsBit_setV_VF]
  rfl

/-- A set cell meets a set bit of the sprite. -/
def State.Collides (s : State) (x y : Reg) (n : Nat) : Prop :=
  ∃ (cx : Fin 64) (cy : Fin 32), s.cell cx.val cy.val = true ∧ s.picture x y n cx.val cy.val = true

open Classical in
theorem State.drawSprite_getV (s : State) (x y : Reg) (n : Nat) (z : Reg) :
    (s.drawSprite x y n).getV z = if z = VF then (if s.Collides x y n then 1#8 else 0#8) else s.getV z := by
  obtain ⟨-, hv, -⟩ := State.drawRows_spec (startColumn (s.getV x)) (startRow (s.getV y)) (List.range n)
    (s.setV VF 0#8) List.pairwise_lt_range
  have hcollides : (∃ cx < 64, ∃ cy < 32, s.picture x y n cx cy = true ∧ (s.setV VF 0#8).cell cx cy = true) ↔
      s.Collides x y n := by
    constructor
    · rintro ⟨cx, hcx, cy, hcy, hbit, hcell⟩
      exact ⟨⟨cx, hcx⟩, ⟨cy, hcy⟩, hcell, hbit⟩
    · rintro ⟨cx, cy, hcell, hbit⟩
      exact ⟨cx.val, cx.isLt, cy.val, cy.isLt, hbit, hcell⟩
  rw [State.drawSprite, hv z, State.getV_setV]
  simp only [State.rowsBit_setV_VF, hcollides]
  by_cases hz : z = VF
  · simp [hz]
  · simp [hz]

theorem State.drawSprite_getV_VF_eq_one (s : State) (x y : Reg) (n : Nat) :
    (s.drawSprite x y n).getV VF = 1#8 ↔ s.Collides x y n := by
  classical
  rw [State.drawSprite_getV, if_pos rfl]
  by_cases hc : s.Collides x y n
  · simp [hc]
  · simp [hc]

theorem State.drawSprite_raises (s : State) (x y : Reg) (n : Nat) :
    RaisesIf (∃ r < n, startRow (s.getV y) + r ≤ 31 ∧ s.ea r > 4095) .memoryOutOfRange s (s.drawSprite x y n) :=
  State.drawRows_raises _ _ n (s.setV VF 0#8)

/-- All but the registers, the framebuffer and STEP_ERR. -/
theorem State.drawSprite_frame (s : State) (x y : Reg) (n : Nat) :
    ∃ v fb e, s.drawSprite x y n = { s with v := v, fb := fb, cur := ⟨s.cur.rnd, e⟩ } := by
  obtain ⟨-, -, hframe⟩ := State.drawRows_spec (startColumn (s.getV x)) (startRow (s.getV y)) (List.range n)
    (s.setV VF 0#8) List.pairwise_lt_range
  exact ⟨_, _, _, hframe⟩

/-- Of the framebuffer only the cells under the picture's set bits change. -/
theorem State.drawSprite_keeps (s : State) (x y : Reg) (n : Nat) :
    KeepsAllBut (fun c => c = .v VF ∨ c = .stepErr ∨ ∃ cx cy, c = .fb cx cy ∧ s.picture x y n cx.val cy.val = true)
      s (s.drawSprite x y n) := by
  obtain ⟨v, fb, e, hframe⟩ := s.drawSprite_frame x y n
  intro c hc
  cases c with
  | v z =>
    have hz : z ≠ VF := fun h => hc (.inl (congrArg Component.v h))
    rw [Same, State.drawSprite_getV, if_neg hz]
  | fb cx cy =>
    have hbit : s.picture x y n cx.val cy.val = false :=
      Bool.eq_false_iff.2 fun h => hc (.inr (.inr ⟨cx, cy, rfl, h⟩))
    rw [Same, State.drawSprite_cell, hbit, Bool.xor_false]
  | stepErr => exact absurd (.inr (.inl rfl)) hc
  | _ => rw [hframe]; rfl

/-- Settles O39: the loops draw the picture. -/
theorem spriteDrawIsPointwiseXor : Obligations.SpriteDrawIsPointwiseXor := by
  refine ⟨.of_fieldP 0xD#4 rfl fun w hp => by simp only [decodeWord, hp],
    fun s x y n => ⟨_, exec_drw x y n s, s.drawSprite_cell x y n.val, ?zeroOrOne, s.drawSprite_getV_VF_eq_one x y n.val,
      ?report, (s.drawSprite_keeps x y n.val).mono ?frame⟩⟩
  case zeroOrOne =>
    classical
    rw [State.drawSprite_getV, if_pos rfl]
    exact ite_eq_or_eq _ _ _
  case report => exact s.drawSprite_raises x y n.val
  case frame =>
    rintro c (h | h | ⟨cx, cy, h, -⟩)
    · exact .inl h
    · exact .inr (.inr h)
    · exact .inr (.inl ⟨cx, cy, h⟩)

/-! ### The second draw (R211 (g)) -/

/-- With x and y other than VF the first draw leaves the start position, I and memory, so the picture is the same. -/
theorem State.drawSprite_picture (s : State) {x y : Reg} (hx : x ≠ VF) (hy : y ≠ VF) (n cx cy : Nat) :
    (s.drawSprite x y n).picture x y n cx cy = s.picture x y n cx cy := by
  have hvx : (s.drawSprite x y n).getV x = s.getV x := by rw [State.drawSprite_getV, if_neg hx]
  have hvy : (s.drawSprite x y n).getV y = s.getV y := by rw [State.drawSprite_getV, if_neg hy]
  obtain ⟨v, fb, e, hframe⟩ := s.drawSprite_frame x y n
  rw [State.picture, hvx, hvy, hframe]
  rfl

/-- Settles O40: the second draw flips the same cells back, and meets those that the first one set. -/
theorem drawingTwiceRestoresTheScreen : Obligations.DrawingTwiceRestoresTheScreen := by
  intro s t x y n hx hy h
  cases h
  rw [← State.drawSprite]
  have hpicture := s.drawSprite_picture hx hy n.val
  refine ⟨_, exec_drw x y n _, fun cx cy => ?restores, ?collides⟩
  case restores => rw [State.drawSprite_cell, State.drawSprite_cell, hpicture, Bool.xor_assoc, Bool.xor_self, Bool.xor_false]
  case collides =>
    rw [State.drawSprite_getV_VF_eq_one, State.Collides]
    refine exists₂_congr fun cx cy => ?_
    rw [State.drawSprite_cell, hpicture, ← State.picture]
    cases s.picture x y n.val cx.val cy.val with
    | false => simp
    | true => simp

end Sys2Proof.Machine
end

section
/-! PROOF. The write columns of the access matrix (10_state.md R34), and what follows for the pieces of state that no handler
writes: the keypad, ERR and the count of draws. -/

namespace Sys2Proof.Machine

/-! ### Every handler keeps what its row does not mark as written (R34) -/

theorem exec_ret_keeps {s t : State} (h : exec .ret s = .next t) : KeepsAllBut (handlerWrites s .ret) s t := by
  obtain hsp | ⟨k, hsp⟩ := sp_zero_or_succ s.sp
  · rw [exec_ret_of_empty s hsp] at h
    cases h
    exact (s.raise_keeps _).mono fun _ hc => .inr (.inr hc)
  · rw [exec_ret_of_some s hsp] at h
    cases h
    exact ((s.withSp_keeps _).mono fun _ hc => .inr (.inl hc)).trans ((State.setPc_keeps _ _).mono fun _ => .inl)

theorem exec_call_keeps {nnn : Addr12} {s t : State} (h : exec (.call nnn) s = .next t) :
    KeepsAllBut (handlerWrites s (.call nnn)) s t := by
  obtain ⟨k, hsp⟩ | hsp := sp_slot_or_full s.sp
  · rw [exec_call_of_room s nnn hsp] at h
    cases h
    have hslot := (s.setSlot_keeps k s.pc).mono (q := handlerWrites s (.call nnn))
      fun _ hc => .inr (.inr (.inl ⟨k, hsp.symm, hc⟩))
    have hsp' := ((s.setSlot k s.pc).withSp_keeps ⟨k.val + 1, by omega⟩).mono (q := handlerWrites s (.call nnn))
      fun _ hc => .inr (.inl hc)
    exact (hslot.trans hsp').trans ((State.setPc_keeps _ _).mono fun _ => .inl)
  · rw [exec_call_of_full s nnn hsp] at h
    cases h
    exact (s.raise_keeps _).mono fun _ hc => .inr (.inr (.inr hc))

theorem exec_ldVxK_keeps {x : Reg} {s t : State} (h : exec (.ldVxK x) s = .next t) :
    KeepsAllBut (handlerWrites s (.ldVxK x)) s t := by
  rw [exec, execLdVxK] at h
  split at h
  · cases h; exact s.rollBackPc_keeps.mono fun _ => .inr
  · cases h; exact (s.setV_keeps x _).mono fun _ => .inl

/-- By the write that the handler is made of: one register, a flag and a register, PC, I, a timer, or stores. -/
theorem exec_keeps {i : Instr} {s t : State} (h : exec i s = .next t) : KeepsAllBut (handlerWrites s i) s t := by
  cases i with
  | ret => exact exec_ret_keeps h
  | call nnn => exact exec_call_keeps h
  | ldVxK x => exact exec_ldVxK_keeps h
  | cls => cases h; exact s.withFb_keeps _
  | jp | jpV0 => cases h; exact s.setPc_keeps _
  | seByte | sneByte | seReg | sneReg | skp | sknp => cases h; exact s.skipIf_keeps _
  | ldByte x | addByte x | ldReg x | orReg x | andReg x | xorReg x | rnd x | ldVxDt x => cases h; exact s.setV_keeps x _
  | addReg x | subReg x | shr x | subnReg x | shl x => cases h; exact s.setFlagThenV_keeps x _ _
  | ldI | addI | ldF => cases h; exact s.setI_keeps _
  | ldDtVx => cases h; exact s.setDt_keeps _
  | ldStVx => cases h; exact s.setSt_keeps _
  | drw x y n => cases h; exact s.drawSprite_keeps x y n.val
  | ldB x => cases h; exact s.storeThree_keeps _ _ _
  | storeRegs x => cases h; exact s.storeAll_regsUpTo_keeps x
  | loadRegs x => cases h; exact s.loadAll_regsUpTo_keeps x
  | undef w => cases h; exact s.raise_keeps _

/-- Settles O17. -/
theorem handlersWriteOnlyTheirColumns : Obligations.HandlersWriteOnlyTheirColumns := fun _ _ _ => exec_keeps

/-! ### What no row marks as written -/

/-- The pieces that only the host or the Step around the handler writes. -/
def OutsideHandlers : Component → Prop
  | .key _ | .err | .rnd | .draws => True
  | _ => False

theorem not_handlerWrites (s : State) (i : Instr) {c : Component} (hc : OutsideHandlers c) : ¬ handlerWrites s i c := by
  cases c with
  | key | err | rnd | draws => cases i <;> simp [handlerWrites]
  | _ => exact absurd hc id

theorem exec_keeps_outside {i : Instr} {s t : State} (h : exec i s = .next t) {c : Component} (hc : OutsideHandlers c) :
    Same s t c := exec_keeps h c (not_handlerWrites s i hc)

/-- The opening and the closing of a Step write neither the keypad nor the count of draws. -/
theorem stepWith_keeps_outside {rnd : Byte} {s t : State} {r : StepReport} (h : stepWith rnd s = .next (t, r))
    {c : Component} (hc : OutsideHandlers c) (hstep : c ∉ [.dt, .st, .err, .stepErr, .rnd]) : Same s t c := by
  obtain ⟨u, hu, rfl, -⟩ := exec_of_stepWith h
  have hopening : c ∉ [.pc, .stepErr, .rnd] := by
    simp only [List.mem_cons, List.not_mem_nil, or_false]
    rintro (rfl | rfl | rfl)
    · exact hc
    · exact hc
    · exact hstep (by simp)
  have hopen : Same s (s.beginStep rnd) c := s.beginStep_keeps rnd c hopening
  exact (hopen.trans (exec_keeps_outside hu hc)).trans (u.endStep_keeps c hstep)

/-! ### Completion (R125, R253) -/

theorem stepWith_completes (rnd : Byte) (s : State) : ∃ t r, stepWith rnd s = .next (t, r) := by
  obtain ⟨u, hu⟩ := exec_completes (decodeWord s.opcode) (s.beginStep rnd)
  exact ⟨_, _, stepWith_of_exec hu⟩

/-- Settles O10: every handler completes, so every Step does, and none writes the count of draws. -/
theorem everyStepCompletes : Obligations.EveryStepCompletes := by
  refine ⟨exec_completes, stepWith_completes, fun s => ?_⟩
  obtain ⟨t, r, h⟩ := stepWith_completes (Config.rnd s.draws) s.draw
  have hdraws : s.draw.draws = t.draws := stepWith_keeps_outside (c := .draws) h trivial (by simp)
  exact ⟨t, step_of_stepWith h, hdraws.symm⟩

/-! ### The keypad (R266) -/

theorem stepWith_keyDown {rnd : Byte} {s t : State} {r : StepReport} (h : stepWith rnd s = .next (t, r)) (k : Key) :
    t.keyDown k = s.keyDown k := (stepWith_keeps_outside (c := .key k) h trivial (by simp)).symm

theorem State.setKey_keeps (s : State) (k : Key) (p : Bool) : KeepsAllBut (· = .key k) s (s.setKey k p) := by
  intro c hc
  cases c with
  | key j =>
    have hjk : j ≠ k := fun e => hc (congrArg Component.key e)
    exact ((s.keyDown_setKey k j p).trans (if_neg hjk)).symm
  | _ => rfl

theorem State.setKeys_keeps (s : State) (flags : Vector Bool 16) :
    KeepsAllBut (fun c => ∃ k, c = .key k) s (s.setKeys flags) := by
  intro c hc
  cases c with
  | key k => exact absurd ⟨k, rfl⟩ hc
  | _ => rfl

theorem State.loadRom_key (s : State) (bytes : List Byte) : (s.loadRom bytes).1.key = s.key := by
  obtain hlen | hlen := Nat.lt_or_ge 3584 bytes.length
  · rw [s.loadRom_of_too_long hlen]
  · rw [s.loadRom_of_fits hlen]

/-- Settles O49: the three moves that write the latch are one replacement each; LoadRom writes memory or ERR, and in a Step
no part writes the latch. -/
theorem onlySetKeyWritesTheKeypad : Obligations.OnlySetKeyWritesTheKeypad := by
  refine ⟨fun _ s k p => ⟨_, rfl, ?setKey, s.setKey_keeps k p⟩, fun _ s flags => ⟨_, rfl, fun _ => rfl, s.setKeys_keeps flags⟩,
    fun _ s font => ⟨_, rfl, State.reset_keyDown⟩, fun fbSetValue m s t r hreset hkey hkeys h k => ?others,
    fun rnd s t r h k => stepWith_keyDown h k, fun s t h k => ?step⟩
  case setKey => rw [State.keyDown_setKey, if_pos rfl]
  case others =>
    cases m with
    | reset font => exact absurd rfl (hreset font)
    | setKey j p => exact absurd rfl (hkey j p)
    | setKeys flags => exact absurd rfl (hkeys flags)
    | loadRom bytes => cases h; rw [State.keyDown, State.loadRom_key]; rfl
    | step rnd =>
      obtain ⟨rep, hst⟩ := stepWith_of_hostMove h
      exact stepWith_keyDown hst k
    | readFramebuffer | readState => cases h; rfl
  case step =>
    obtain ⟨r, hr⟩ := stepWith_of_step h
    exact stepWith_keyDown hr k

/-! ### Error kinds of one Step (R256) -/

/-- The values of STEP_ERR with at most one kind. -/
def singleErrors : List (BitVec 4) := [0b0000#4, 0b0001#4, 0b0010#4, 0b0100#4, 0b1000#4]

theorem bit_mem_singleErrors (e : StepError) : e.bit ∈ singleErrors := by
  cases e with
  | _ => decide

theorem exec_adds_singleError {i : Instr} {s t : State} (h : exec i s = .next t) :
    ∃ e ∈ singleErrors, t.cur.err = s.cur.err ||| e := by
  classical
  refine ⟨_, ?_, exec_raises h⟩
  split
  · exact bit_mem_singleErrors _
  · decide

/-- A kind of the handler beside the fetch's. -/
theorem fetch_or_singleError : ∀ f ∈ [0b0000#4, 0b1000#4], ∀ e ∈ singleErrors,
    f ||| e ∈ [0b0000#4, 0b0001#4, 0b0010#4, 0b0100#4, 0b1000#4, 0b1001#4, 0b1010#4, 0b1100#4] := by decide

/-- Settles O12: the fetch raises MemoryOutOfRange or nothing, and the handler adds at most one kind. -/
theorem errorKindsCombineOnlyWithTheFetch : Obligations.ErrorKindsCombineOnlyWithTheFetch := by
  refine ⟨fun i s t h => exec_adds_singleError h, fun rnd s t r h => ?_⟩
  obtain ⟨u, hu, -, rfl⟩ := exec_of_stepWith h
  obtain ⟨e, he, herr⟩ := exec_adds_singleError hu
  rw [herr, State.beginStep_cur]
  refine fetch_or_singleError _ ?_ e he
  split
  · simp [StepError.bit]
  · simp

end Sys2Proof.Machine
end

section
/-! PROOF. The read columns of the access matrix (10_state.md R34): two runs of a handler on states that agree on what its row
reads end alike. -/

namespace Sys2Proof.Machine

/-! ### Two runs that end alike -/

/-- From `s` to `t` and from `s'` to `t'`, each piece of state but STEP_ERR ends the same in both or untouched in both. -/
def EndAlike (s s' t t' : State) : Prop := ∀ c, c ≠ .stepErr → Same t t' c ∨ (Same s t c ∧ Same s' t' c)

/-- Two runs with the same frame end alike if they agree on what the frame lets them change. -/
theorem EndAlike.of_keeps {p : Component → Prop} {s s' t t' : State} (h : KeepsAllBut p s t) (h' : KeepsAllBut p s' t')
    (hsame : ∀ c, p c → c ≠ .stepErr → Same t t' c) : EndAlike s s' t t' := by
  intro c hc
  by_cases hp : p c
  · exact .inl (hsame c hp hc)
  · exact .inr ⟨h c hp, h' c hp⟩

/-- The same for a frame of one piece. -/
theorem EndAlike.of_keeps_one {d : Component} {s s' t t' : State} (h : KeepsAllBut (· = d) s t)
    (h' : KeepsAllBut (· = d) s' t') (hsame : Same t t' d) : EndAlike s s' t t' :=
  .of_keeps h h' fun _ hc _ => hc ▸ hsame

/-! ### The shared writes, of the same value in both runs -/

section
variable {s s' : State}

theorem EndAlike.setV {x : Reg} {b b' : Byte} (hb : b = b') : EndAlike s s' (s.setV x b) (s'.setV x b') := by
  refine .of_keeps_one (s.setV_keeps x b) (s'.setV_keeps x b') ?_
  rw [Same, State.getV_setV_same, State.getV_setV_same, hb]

theorem EndAlike.setFlagThenV {x : Reg} {f f' r r' : Byte} (hf : f = f') (hr : r = r') :
    EndAlike s s' (s.setFlagThenV x f r) (s'.setFlagThenV x f' r') := by
  subst hf hr
  refine .of_keeps (s.setFlagThenV_keeps x f r) (s'.setFlagThenV_keeps x f r) fun c hc _ => ?_
  obtain rfl | rfl := hc
  · simp [Same, State.getV_setFlagThenV]
  · simp [Same]

theorem EndAlike.setPc {w w' : Word} (hw : w = w') : EndAlike s s' (s.setPc w) (s'.setPc w') :=
  .of_keeps_one (s.setPc_keeps w) (s'.setPc_keeps w') hw

theorem EndAlike.skipIf {b b' : Bool} (hpc : s.pc = s'.pc) (hb : b = b') : EndAlike s s' (s.skipIf b) (s'.skipIf b') := by
  refine .of_keeps_one (s.skipIf_keeps b) (s'.skipIf_keeps b') ?_
  rw [Same, State.skipIf_eq, State.skipIf_eq, hpc, hb]

theorem EndAlike.setI {w w' : Word} (hw : w = w') : EndAlike s s' (s.setI w) (s'.setI w') :=
  .of_keeps_one (s.setI_keeps w) (s'.setI_keeps w') hw

theorem EndAlike.setDt {b b' : Byte} (hb : b = b') : EndAlike s s' (s.setDt b) (s'.setDt b') :=
  .of_keeps_one (s.setDt_keeps b) (s'.setDt_keeps b') hb

theorem EndAlike.setSt {b b' : Byte} (hb : b = b') : EndAlike s s' (s.setSt b) (s'.setSt b') :=
  .of_keeps_one (s.setSt_keeps b) (s'.setSt_keeps b') hb

theorem EndAlike.raise (e : StepError) : EndAlike s s' (s.raise e) (s'.raise e) :=
  .of_keeps (s.raise_keeps e) (s'.raise_keeps e) fun _ hc hne => absurd hc hne

theorem EndAlike.clear : EndAlike s s' { s with fb := Framebuffer.clear } { s' with fb := Framebuffer.clear } := by
  refine .of_keeps (s.withFb_keeps _) (s'.withFb_keeps _) fun c hc _ => ?_
  obtain ⟨cx, cy, rfl⟩ := hc
  rfl

/-! ### Control transfer -/

theorem EndAlike.ret {t t' : State} (hsp : s.sp = s'.sp) (hslot : ∀ k, s.slot k = s'.slot k)
    (ht : exec .ret s = .next t) (ht' : exec .ret s' = .next t') : EndAlike s s' t t' := by
  obtain h | ⟨k, h⟩ := sp_zero_or_succ s.sp
  · rw [exec_ret_of_empty s h] at ht
    rw [exec_ret_of_empty s' (hsp ▸ h)] at ht'
    cases ht; cases ht'
    exact .raise _
  · obtain ⟨-, hpops, -⟩ := returnPopsOrReportsUnderflow
    obtain ⟨u, hu, hpc, hsp1, hkeeps⟩ := hpops s k h
    obtain ⟨u', hu', hpc', hsp1', hkeeps'⟩ := hpops s' k (hsp ▸ h)
    cases hu.symm.trans ht
    cases hu'.symm.trans ht'
    refine .of_keeps hkeeps hkeeps' fun c hc _ => ?_
    simp only [List.mem_cons, List.not_mem_nil, or_false] at hc
    obtain rfl | rfl := hc
    · exact hpc.trans ((hslot k).trans hpc'.symm)
    · exact Fin.ext (hsp1.trans hsp1'.symm)

theorem EndAlike.call {nnn : Addr12} {t t' : State} (hpc : s.pc = s'.pc) (hsp : s.sp = s'.sp)
    (ht : exec (.call nnn) s = .next t) (ht' : exec (.call nnn) s' = .next t') : EndAlike s s' t t' := by
  obtain ⟨k, h⟩ | h := sp_slot_or_full s.sp
  · obtain ⟨-, hpushes, -⟩ := callPushesOrReportsOverflow
    obtain ⟨u, hu, hslot, hsp1, hpc1, hkeeps⟩ := hpushes s nnn k h
    obtain ⟨u', hu', hslot', hsp1', hpc1', hkeeps'⟩ := hpushes s' nnn k (hsp ▸ h)
    cases hu.symm.trans ht
    cases hu'.symm.trans ht'
    refine .of_keeps hkeeps hkeeps' fun c hc _ => ?_
    simp only [List.mem_cons, List.not_mem_nil, or_false] at hc
    obtain rfl | rfl | rfl := hc
    · exact hslot.trans (hpc.trans hslot'.symm)
    · exact Fin.ext (hsp1.trans hsp1'.symm)
    · exact BitVec.eq_of_toNat_eq (hpc1.trans hpc1'.symm)
  · rw [exec_call_of_full s nnn h] at ht
    rw [exec_call_of_full s' nnn (hsp ▸ h)] at ht'
    cases ht; cases ht'
    exact .raise _

theorem EndAlike.ldVxK {x : Reg} {t t' : State} (hpc : s.pc = s'.pc) (hkey : ∀ k, s.keyDown k = s'.keyDown k)
    (ht : exec (.ldVxK x) s = .next t) (ht' : exec (.ldVxK x) s' = .next t') : EndAlike s s' t t' := by
  have hlowest : s.lowestKey = s'.lowestKey := congrArg nibbles.find? (funext hkey)
  rw [exec, execLdVxK] at ht ht'
  rw [← hlowest] at ht'
  cases hk : s.lowestKey with
  | none =>
    rw [hk] at ht ht'
    cases ht; cases ht'
    exact .setPc (congrArg (· - 2#16) hpc)
  | some k =>
    rw [hk] at ht ht'
    cases ht; cases ht'
    exact .setV rfl

/-! ### Index register and memory -/

theorem State.ea_congr (hi : s.i = s'.i) (k : Nat) : s.ea k = s'.ea k := by rw [State.ea, State.ea, hi]

theorem State.dataCell_congr (hi : s.i = s'.i) (k : Nat) : s.dataCell k = s'.dataCell k := by
  rw [State.dataCell, State.dataCell, State.ea_congr hi]

theorem State.readByte_congr (hmem : ∀ a : Fin 4096, s.mem.read a.val = s'.mem.read a.val) (ea : Nat) :
    s.readByte ea = s'.readByte ea := hmem ⟨ea % 4096, Nat.mod_lt _ (by decide)⟩

theorem EndAlike.storeThree (hwf : s.mem.wf) (hwf' : s'.mem.wf) (hi : s.i = s'.i) (a b c : Byte) :
    EndAlike s s' (s.storeThree a b c) (s'.storeThree a b c) := by
  obtain ⟨h0, h1, h2⟩ := s.storeThree_values hwf a b c
  obtain ⟨h0', h1', h2'⟩ := s'.storeThree_values hwf' a b c
  have hkeeps' := s'.storeThree_keeps a b c
  simp only [← State.dataCell_congr hi] at h0' h1' h2' hkeeps'
  refine .of_keeps (s.storeThree_keeps a b c) hkeeps' fun d hd hne => ?_
  obtain ⟨n, ⟨k, hk, hn⟩, rfl⟩ := hd.resolve_right hne
  rw [Same, hn]
  match k, hk with
  | 0, _ => exact h0.trans h0'.symm
  | 1, _ => exact h1.trans h1'.symm
  | 2, _ => exact h2.trans h2'.symm

theorem EndAlike.storeAll (hwf : s.mem.wf) (hwf' : s'.mem.wf) (hi : s.i = s'.i) {x : Reg}
    (hv : ∀ r ≤ x, s.getV r = s'.getV r) :
    EndAlike s s' (State.storeAll s (regsUpTo x) s) (State.storeAll s' (regsUpTo x) s') := by
  have hkeeps' := s'.storeAll_regsUpTo_keeps x
  simp only [← State.dataCell_congr hi] at hkeeps'
  refine .of_keeps (s.storeAll_regsUpTo_keeps x) hkeeps' fun d hd hne => ?_
  obtain ⟨n, ⟨k, hk, hn⟩, rfl⟩ := hd.resolve_right hne
  have hr : (⟨k, by omega⟩ : Reg) ≤ x := hk
  have hvalue := s.storeAll_regsUpTo_values hwf hr
  have hvalue' := s'.storeAll_regsUpTo_values hwf' hr
  rw [← State.dataCell_congr hi] at hvalue'
  rw [Same, hn]
  exact hvalue.trans ((hv _ hr).trans hvalue'.symm)

theorem EndAlike.loadAll (hi : s.i = s'.i) (hmem : ∀ a : Fin 4096, s.mem.read a.val = s'.mem.read a.val) (x : Reg) :
    EndAlike s s' (State.loadAll (regsUpTo x) s) (State.loadAll (regsUpTo x) s') := by
  refine .of_keeps (s.loadAll_regsUpTo_keeps x) (s'.loadAll_regsUpTo_keeps x) fun d hd hne => ?_
  obtain ⟨r, hr, rfl⟩ := hd.resolve_right hne
  rw [Same, s.loadAll_regsUpTo_values hr, s'.loadAll_regsUpTo_values hr, ← State.dataCell_congr hi]
  exact State.readByte_congr hmem (s.ea r.val)

/-! ### Dxyn -/

theorem State.picture_congr {x y : Reg} (hx : s.getV x = s'.getV x) (hy : s.getV y = s'.getV y) (hi : s.i = s'.i)
    (hmem : ∀ a : Fin 4096, s.mem.read a.val = s'.mem.read a.val) (n cx cy : Nat) :
    s.picture x y n cx cy = s'.picture x y n cx cy := by
  simp only [State.picture, State.spriteBit, hx, hy, State.ea_congr hi, State.readByte_congr hmem]

theorem EndAlike.drawSprite {x y : Reg} (n : Nat)
    (hcell : ∀ (cx : Fin 64) (cy : Fin 32), s.cell cx.val cy.val = s'.cell cx.val cy.val)
    (hpicture : ∀ cx cy, s.picture x y n cx cy = s'.picture x y n cx cy) :
    EndAlike s s' (s.drawSprite x y n) (s'.drawSprite x y n) := by
  classical
  have hkeeps' := s'.drawSprite_keeps x y n
  simp only [← hpicture] at hkeeps'
  refine .of_keeps (s.drawSprite_keeps x y n) hkeeps' fun c hc hne => ?_
  obtain rfl | rfl | ⟨cx, cy, rfl, -⟩ := hc
  · have hcollides : s.Collides x y n ↔ s'.Collides x y n := by simp only [State.Collides, hcell, hpicture]
    simp only [Same, State.drawSprite_getV, if_true, hcollides]
  · exact absurd rfl hne
  · rw [Same, State.drawSprite_cell, State.drawSprite_cell, hcell, hpicture]

end

/-! ### Every handler (R34) -/

/-- The write that the handler is made of is of the same value in both runs, since the pieces it is computed from are among
those that the row marks as read. -/
theorem exec_endAlike {i : Instr} {s s' t t' : State} (hwf : s.mem.wf) (hwf' : s'.mem.wf)
    (h : ∀ c, handlerReads i c → Same s s' c) (ht : exec i s = .next t) (ht' : exec i s' = .next t') :
    EndAlike s s' t t' := by
  cases i with
  | cls => cases ht; cases ht'; exact .clear
  | ret => exact .ret (h .sp (.inl rfl)) (fun k => h (.stack k) (.inr ⟨k, rfl⟩)) ht ht'
  | call nnn => exact .call (h .pc (.inl rfl)) (h .sp (.inr (.inl rfl))) ht ht'
  | jp nnn => cases ht; cases ht'; exact .setPc rfl
  | jpV0 nnn => cases ht; cases ht'; exact .setPc (congrArg (fun b : Byte => nnn.zext + b.zext) (h (.v 0) rfl))
  | seByte x kk | sneByte x kk =>
    cases ht; cases ht'
    have hx : s.getV x = s'.getV x := h (.v x) (.inl rfl)
    exact .skipIf (h .pc (.inr rfl)) (by rw [hx])
  | seReg x y | sneReg x y =>
    cases ht; cases ht'
    have hx : s.getV x = s'.getV x := h (.v x) (.inl rfl)
    have hy : s.getV y = s'.getV y := h (.v y) (.inr (.inl rfl))
    exact .skipIf (h .pc (.inr (.inr rfl))) (by rw [hx, hy])
  | skp x | sknp x =>
    cases ht; cases ht'
    have hx : s.getV x = s'.getV x := h (.v x) (.inl rfl)
    have hkey : ∀ k, s.keyDown k = s'.keyDown k := fun k => h (.key k) (.inr (.inr ⟨k, rfl⟩))
    exact .skipIf (h .pc (.inr (.inl rfl))) (by rw [hx, hkey])
  | ldByte x kk => cases ht; cases ht'; exact .setV rfl
  | addByte x kk => cases ht; cases ht'; exact .setV (congrArg (· + kk) (h (.v x) rfl))
  | ldReg x y => cases ht; cases ht'; exact .setV (h (.v y) rfl)
  | orReg x y | andReg x y | xorReg x y =>
    cases ht; cases ht'
    exact .setV (congrArg₂ _ (h (.v x) (.inl rfl)) (h (.v y) (.inr rfl)))
  | rnd x kk => cases ht; cases ht'; exact .setV (congrArg (· &&& kk) (h .rnd rfl))
  | ldVxDt x => cases ht; cases ht'; exact .setV (h .dt rfl)
  | addReg x y | subReg x y | subnReg x y =>
    cases ht; cases ht'
    have hx : s.getV x = s'.getV x := h (.v x) (.inl rfl)
    have hy : s.getV y = s'.getV y := h (.v y) (.inr rfl)
    exact .setFlagThenV (by rw [hx, hy]) (by rw [hx, hy])
  | shr x y | shl x y =>
    cases ht; cases ht'
    have hx : s.getV x = s'.getV x := h (.v x) rfl
    exact .setFlagThenV (by rw [hx]) (by rw [hx])
  | ldVxK x => exact .ldVxK (h .pc (.inl rfl)) (fun k => h (.key k) (.inr ⟨k, rfl⟩)) ht ht'
  | ldI nnn => cases ht; cases ht'; exact .setI rfl
  | addI x => cases ht; cases ht'; exact .setI (congrArg₂ indexSum (h .i (.inr rfl)) (h (.v x) (.inl rfl)))
  | ldF x => cases ht; cases ht'; exact .setI (congrArg glyphAddress (h (.v x) rfl))
  | ldDtVx x => cases ht; cases ht'; exact .setDt (h (.v x) rfl)
  | ldStVx x => cases ht; cases ht'; exact .setSt (h (.v x) rfl)
  | ldB x =>
    have hx : s.getV x = s'.getV x := h (.v x) (.inl rfl)
    rw [exec_ldB] at ht ht'
    rw [← hx] at ht'
    cases ht; cases ht'
    exact .storeThree hwf hwf' (h .i (.inr rfl)) _ _ _
  | storeRegs x =>
    cases ht; cases ht'
    exact .storeAll hwf hwf' (h .i (.inr rfl)) fun r hr => h (.v r) (.inl ⟨r, hr, rfl⟩)
  | loadRegs x =>
    cases ht; cases ht'
    exact .loadAll (h .i (.inl rfl)) (fun a => h (.mem a) (.inr ⟨a, rfl⟩)) x
  | drw x y n =>
    rw [exec_drw] at ht ht'
    cases ht; cases ht'
    refine .drawSprite n.val (fun cx cy => h (.fb cx cy) (.inr (.inr (.inr (.inl ⟨cx, cy, rfl⟩))))) ?_
    exact State.picture_congr (h (.v x) (.inl rfl)) (h (.v y) (.inr (.inl rfl))) (h .i (.inr (.inr (.inl rfl))))
      (fun a => h (.mem a) (.inr (.inr (.inr (.inr ⟨a, rfl⟩))))) n.val
  | undef w => cases ht; cases ht'; exact .raise _

/-- The addresses of data accesses depend on I, and the rows that Dxyn reads on Vy. -/
theorem accessesOutOfRange_congr {i : Instr} {s s' : State} (h : ∀ c, handlerReads i c → Same s s' c) :
    accessesOutOfRange s i ↔ accessesOutOfRange s' i := by
  cases i with
  | drw x y n =>
    have hy : s.getV y = s'.getV y := h (.v y) (.inr (.inl rfl))
    have hi : s.i = s'.i := h .i (.inr (.inr (.inl rfl)))
    simp only [accessesOutOfRange, hy, State.ea_congr hi]
  | ldB x | storeRegs x =>
    have hi : s.i = s'.i := h .i (.inr rfl)
    simp only [accessesOutOfRange, State.ea_congr hi]
  | loadRegs x =>
    have hi : s.i = s'.i := h .i (.inl rfl)
    simp only [accessesOutOfRange, State.ea_congr hi]
  | _ => exact Iff.rfl

/-- When a handler raises its kind depends on what its row marks as read. -/
theorem handlerFails_congr {i : Instr} {s s' : State} (h : ∀ c, handlerReads i c → Same s s' c) :
    handlerFails s i ↔ handlerFails s' i := by
  cases i with
  | ret =>
    have hsp : s.sp = s'.sp := h .sp (.inl rfl)
    exact iff_of_eq (congrArg (fun p : Fin 17 => p.val = 0) hsp)
  | call nnn =>
    have hsp : s.sp = s'.sp := h .sp (.inr (.inl rfl))
    exact iff_of_eq (congrArg (fun p : Fin 17 => p.val = 16) hsp)
  | undef w => exact Iff.rfl
  | _ => exact accessesOutOfRange_congr h

/-- Settles O18: two runs end alike by the writes of their handler, and raise its kind under the same condition. -/
theorem handlersReadOnlyTheirColumns : Obligations.HandlersReadOnlyTheirColumns := by
  classical
  intro i s s' t t' hwf hwf' h ht ht'
  exact ⟨exec_endAlike hwf hwf' h ht ht', _, exec_raises ht, (exec_raises ht').congr (handlerFails_congr h).symm⟩

end Sys2Proof.Machine
end

section
/-! PROOF. ERR is written by the Step and read by none (10_state.md R31, 60_exceptions.md R252): replacing it in a state
commutes with every shared operation, and so with every handler, as replacing the RND input does with all but one. -/

namespace Sys2Proof.Machine

/-! ### Replacing ERR -/

/-- The state with another content of ERR. -/
def State.withErr (s : State) (e : BitVec 5) : State := { s with err := e }

theorem State.beginStep_withErr (s : State) (e : BitVec 5) (rnd : Byte) :
    (s.withErr e).beginStep rnd = (s.beginStep rnd).withErr e := by
  rw [State.beginStep_eq, State.beginStep_eq]
  rfl

theorem State.endStep_withErr (s : State) (e : BitVec 5) :
    (s.withErr e).endStep = s.endStep.withErr (e ||| s.cur.err.zeroExtend 5) := rfl

/-! ### The shared operations leave ERR alone and do not read it -/

theorem State.checkAddr_withErr (s : State) (e : BitVec 5) (ea : Nat) :
    (s.withErr e).checkAddr ea = (s.checkAddr ea).withErr e := by
  rw [State.checkAddr_eq, State.checkAddr_eq]
  rfl

theorem State.memWrite_withErr (s : State) (e : BitVec 5) (ea : Nat) (b : Byte) :
    (s.withErr e).memWrite ea b = (s.memWrite ea b).withErr e := by
  rw [State.memWrite_eq, State.memWrite_eq]
  rfl

theorem State.storeThree_withErr (s : State) (e : BitVec 5) (a b c : Byte) :
    (s.withErr e).storeThree a b c = (s.storeThree a b c).withErr e := by
  simp only [State.storeThree, State.memWrite_withErr]
  rfl

theorem State.storeAll_withErr (s0 : State) (e : BitVec 5) (rs : List Reg) (s : State) :
    State.storeAll (s0.withErr e) rs (s.withErr e) = (State.storeAll s0 rs s).withErr e := by
  induction rs generalizing s with
  | nil => rfl
  | cons q rs ih => rw [State.storeAll, State.memWrite_withErr, ih]; rfl

theorem State.loadAll_withErr (e : BitVec 5) (rs : List Reg) (s : State) :
    State.loadAll rs (s.withErr e) = (State.loadAll rs s).withErr e := by
  induction rs generalizing s with
  | nil => rfl
  | cons q rs ih =>
    simp only [State.loadAll, State.memRead, State.checkAddr_withErr]
    exact ih ((s.checkAddr (s.ea q.val)).setV q (s.readByte (s.ea q.val)))

theorem State.drawColumns_withErr (x0 cy : Nat) (b : Byte) (e : BitVec 5) (cs : List Nat) (s : State) :
    State.drawColumns x0 cy b cs (s.withErr e) = (State.drawColumns x0 cy b cs s).withErr e := by
  have hcell : ∀ (s : State) (cx : Nat), (s.withErr e).drawCell cx cy = (s.drawCell cx cy).withErr e := by
    intro s cx
    have hread : (s.withErr e).cell cx cy = s.cell cx cy := rfl
    rw [State.drawCell, State.drawCell, hread]
    cases s.cell cx cy with
    | false => rfl
    | true => rfl
  induction cs generalizing s with
  | nil => rfl
  | cons c cs ih => rw [State.drawColumns, State.drawColumns, hcell, ← apply_ite (State.withErr · e), ih]

theorem State.drawRows_withErr (x0 y0 : Nat) (e : BitVec 5) (rs : List Nat) (s : State) :
    State.drawRows x0 y0 rs (s.withErr e) = (State.drawRows x0 y0 rs s).withErr e := by
  induction rs generalizing s with
  | nil => rfl
  | cons q rs ih =>
    simp only [State.drawRows, State.memRead, State.checkAddr_withErr, State.drawColumns_withErr, ih]
    split
    · rfl
    · rfl

/-! ### The handlers and the Step -/

/-- Where a handler tests the state, the replacement does not change the test; where it runs a shared operation, the lemma of
that operation moves the replacement past it. -/
theorem exec_withErr {i : Instr} {s t : State} (h : exec i s = .next t) (e : BitVec 5) :
    exec i (s.withErr e) = .next (t.withErr e) := by
  cases i with
  | ret =>
    obtain hsp | ⟨k, hsp⟩ := sp_zero_or_succ s.sp
    · rw [exec_ret_of_empty s hsp] at h
      cases h
      exact exec_ret_of_empty (s.withErr e) hsp
    · rw [exec_ret_of_some s hsp] at h
      cases h
      exact exec_ret_of_some (s.withErr e) hsp
  | call nnn =>
    obtain ⟨k, hsp⟩ | hsp := sp_slot_or_full s.sp
    · rw [exec_call_of_room s nnn hsp] at h
      cases h
      exact exec_call_of_room (s.withErr e) nnn hsp
    · rw [exec_call_of_full s nnn hsp] at h
      cases h
      exact exec_call_of_full (s.withErr e) nnn hsp
  | ldVxK x =>
    have hkey : (s.withErr e).lowestKey = s.lowestKey := rfl
    rw [exec, execLdVxK] at h ⊢
    rw [hkey]
    split at h
    · cases h; rfl
    · cases h; rfl
  | seByte | sneByte | seReg | sneReg | skp | sknp =>
    cases h
    simp only [exec, execSeByte, execSneByte, execSeReg, execSneReg, execSkp, execSknp, State.skipIf_eq]
    rfl
  | ldB x => cases h; exact congrArg _ (s.storeThree_withErr e _ _ _)
  | storeRegs x => cases h; exact congrArg _ (State.storeAll_withErr s e _ s)
  | loadRegs x => cases h; exact congrArg _ (State.loadAll_withErr e _ s)
  | drw x y n => cases h; exact congrArg _ (State.drawRows_withErr _ _ e _ (s.setV VF 0#8))
  | _ => cases h; rfl

/-- Settles O16: the closing of the Step ORs the report into the ERR that it finds, which nothing before it has written or
read. -/
theorem errIsStickyAndNeverRead : Obligations.ErrIsStickyAndNeverRead := by
  intro rnd s e
  obtain ⟨u, hu⟩ := exec_completes (decodeWord s.opcode) (s.beginStep rnd)
  have hkeep : s.err = u.err := by
    rw [← s.beginStep_err rnd]
    exact exec_keeps_outside (c := .err) hu trivial
  have hother := exec_withErr hu e
  rw [← State.beginStep_withErr] at hother
  refine ⟨_, _, stepWith_of_exec hu, ?accumulates, ?sticky, ?unread⟩
  case accumulates => rw [State.endStep_err, hkeep]
  case sticky =>
    rw [State.endStep_err, hkeep]
    ext j hj
    simpa using Or.inl
  case unread => exact stepWith_of_exec (s := s.withErr e) hother

end Sys2Proof.Machine
end

section
/-! PROOF. Memory accesses and the opcode that a Step fetches (20_memory.md R60 to R72): the cell of an access, a word placed
where the next Step fetches it, and registers stored there by Fx55. -/

namespace Sys2Proof.Machine

/-! ### One access (R65) -/

theorem State.checkAddr_raises (s : State) (ea : Nat) : RaisesIf (ea > 4095) .memoryOutOfRange s (s.checkAddr ea) := by
  rw [State.checkAddr_eq, RaisesIf]

theorem State.checkAddr_keeps (s : State) (ea : Nat) : KeepsAllBut (· = .stepErr) s (s.checkAddr ea) := by
  unfold State.checkAddr
  split
  · exact s.raise_keeps _
  · exact KeepsAllBut.refl _ s

/-- Settles O21. -/
theorem memoryWrapsAndReports : Obligations.MemoryWrapsAndReports :=
  fun s ea b hwf => ⟨fun ea' => s.readByte_memWrite hwf ea ea' b, s.memWrite_raises ea b, s.memWrite_keeps ea b, rfl,
    s.checkAddr_raises ea, s.checkAddr_keeps ea⟩

/-! ### A word placed where the next Step fetches (R62, R66) -/

theorem State.withFetchWord_eq (s : State) (w : Word) :
    s.withFetchWord 16 w.toNat = s.placeWord s.pc.toNat (highByte w) (lowByte w) := by
  rw [State.withFetchWord, Nat.mod_eq_of_lt w.isLt, BitVec.ofNat_toNat, BitVec.setWidth_eq, State.placeFetchWord]

/-- A cell and the next one, modulo 4096, are two, so each keeps its byte. -/
theorem State.readByte_placeWord (s : State) (h : s.mem.wf) (a : Nat) (hi lo : Byte) :
    (s.placeWord a hi lo).readByte a = hi ∧ (s.placeWord a hi lo).readByte (a + 1) = lo := by
  have hne : a % Config.memSize ≠ (a + 1) % Config.memSize := by
    simp only [Config.memSize]
    omega
  have hwf := Memory.wf_write h (Nat.mod_lt a (by decide)) hi
  refine ⟨?high, ?low⟩
  case high => rw [State.readByte, State.placeWord_mem, Memory.read_write_ne _ _ hne, Memory.read_write_same h]
  case low => rw [State.readByte, State.placeWord_mem, Memory.read_write_same hwf]

theorem State.placeWord_keeps (s : State) (a : Nat) (hi lo : Byte) :
    KeepsAllBut (fun c => ∃ n : Fin 4096, (n.val = a % 4096 ∨ n.val = (a + 1) % 4096) ∧ c = .mem n) s
      (s.placeWord a hi lo) := by
  intro c hc
  cases c with
  | mem n =>
    have hfirst : n.val ≠ a % Config.memSize := fun e => hc ⟨n, .inl e, rfl⟩
    have hsecond : n.val ≠ (a + 1) % Config.memSize := fun e => hc ⟨n, .inr e, rfl⟩
    rw [Same, State.placeWord_mem, Memory.read_write_ne _ _ hsecond, Memory.read_write_ne _ _ hfirst]
  | _ => rfl

/-- Settles O50: the two cells of the fetch hold the two bytes of the word. -/
theorem fetchWordIsPlacedWhereStepFetches : Obligations.FetchWordIsPlacedWhereStepFetches := by
  intro s w hwf
  rw [State.withFetchWord_eq]
  refine ⟨?_, s.placeWord_keeps _ _ _⟩
  obtain ⟨hhigh, hlow⟩ := s.readByte_placeWord hwf s.pc.toNat (highByte w) (lowByte w)
  rw [State.opcode, State.placeWord_pc, hhigh, hlow, wordOfBytes_bytes]

/-! ### Registers stored over the next instruction (R72) -/

/-- After Fx55 the byte of a transferred register stands at its own address. -/
theorem State.readByte_storeAll (s : State) (h : s.mem.wf) {x r : Reg} (hr : r ≤ x) :
    (State.storeAll s (regsUpTo x) s).readByte (s.ea r.val) = s.getV r := s.storeAll_regsUpTo_values h hr

theorem State.storeAll_pc (s0 : State) (rs : List Reg) (s : State) : (State.storeAll s0 rs s).pc = s.pc := by
  obtain ⟨m, hm, -⟩ := State.storeAll_frame s0 rs s
  rw [hm]

/-- With I at the next instruction the next opcode is V0 and V1. -/
theorem State.opcode_storeAll (s : State) (h : s.mem.wf) {x : Reg} (hx : 1 ≤ x.val) (hi : s.i = s.pc) :
    (State.storeAll s (regsUpTo x) s).opcode = wordOfBytes (s.getV 0) (s.getV 1) := by
  have hzero : (0 : Reg) ≤ x := Nat.zero_le x.val
  have hone : (1 : Reg) ≤ x := hx
  have hhigh := s.readByte_storeAll h hzero
  have hlow := s.readByte_storeAll h hone
  rw [State.ea, hi] at hhigh hlow
  rw [State.opcode, State.storeAll_pc]
  exact congrArg₂ wordOfBytes hhigh hlow

/-- Settles O20: the opening of the Step advances PC to I and leaves registers and memory, and its closing leaves PC and
memory. -/
theorem storeIsSeenByTheNextFetch : Obligations.StoreIsSeenByTheNextFetch := by
  intro rnd s x hwf hw hx hi
  have hexec : exec (decodeWord s.opcode) (s.beginStep rnd) =
      .next (State.storeAll (s.beginStep rnd) (regsUpTo x) (s.beginStep rnd)) := by rw [hw, exec_storeRegs]
  have hwf' : (s.beginStep rnd).mem.wf := by rwa [State.beginStep_eq]
  have hi' : (s.beginStep rnd).i = (s.beginStep rnd).pc := by rw [State.beginStep_eq]; exact hi
  refine ⟨_, _, stepWith_of_exec hexec, ?_⟩
  have hopcode := State.opcode_storeAll _ hwf' hx hi'
  rw [State.beginStep_getV, State.beginStep_getV] at hopcode
  exact hopcode

end Sys2Proof.Machine
end

section
/-! PROOF. A Step that runs the decoded instruction (40_step_cycle.md R120), a jump to itself (70_reset_and_hazards.md R299), a
call with its return (10_state.md R24), and the host's view of the framebuffer (44_display.md R213). -/

namespace Sys2Proof.Machine

/-! ### The decoded instruction (R120) -/

/-- Settles O7: the two bytes at PC are those of the opcode. -/
theorem stepRunsTheDecodedInstruction : Obligations.StepRunsTheDecodedInstruction := by
  intro s t i hdecode hexec
  have hi : decodeWord s.draw.opcode = i := congrArg Prod.fst (Except.ok.inj hdecode)
  rw [← hi] at hexec
  exact step_of_stepWith (stepWith_of_exec hexec)

/-! ### A jump to itself (R299) -/

/-- The word 1nnn, as R299 writes it. -/
theorem encodeWord_jp (a : Addr12) : encodeWord (.jp a) = 0x1000#16 + a.zext := by
  have hzext : a.zext.toNat = a.toNat := target_toNat a
  apply BitVec.eq_of_toNat_eq
  show BitVec.toNat (w := 4 + 12) (0x1#4 ++ a) = _
  rw [BitVec.toNat_append, ← Nat.shiftLeft_add_eq_or_of_lt a.isLt, BitVec.toNat_add, hzext, Nat.shiftLeft_eq]
  have ha := a.isLt
  show 1 * 2 ^ 12 + a.toNat = (4096 + a.toNat) % 2 ^ 16
  omega

theorem exec_jp (nnn : Addr12) (s : State) : exec (.jp nnn) s = .next (s.setPc (target nnn)) := rfl

/-- The two timers of a state ticked. -/
def State.ticked (s : State) : State := { s with dt := tickByte s.dt, st := tickByte s.st }

theorem State.ticked_of_zero (s : State) (hdt : s.dt = 0#8) (hst : s.st = 0#8) : s.ticked = s := by
  have hdt' : tickByte s.dt = s.dt := by rw [hdt]; rfl
  have hst' : tickByte s.st = s.st := by rw [hst]; rfl
  rw [State.ticked, hdt', hst']

/-- Opening, the jump back and closing leave all but the timers, where the fetch is in range and the scratch is idle. -/
theorem State.selfJump_eq_ticked (s : State) (rnd : Byte) (hpc : s.pc.toNat + 1 ≤ 4095) (hcur : s.cur = StepLocal.idle) :
    ((s.beginStep rnd).setPc s.pc).endStep = s.ticked := by
  rw [State.beginStep_eq, if_neg (by omega), State.ticked, State.endStep, State.setPc, ← hcur]
  simp

/-- Settles O19: the word decodes to the jump, which undoes the fetch advance. -/
theorem selfJumpOnlyRunsTheTimersDown : Obligations.SelfJumpOnlyRunsTheTimersDown := by
  intro rnd s a ha hpc hop hcur
  have hzext : a.zext.toNat = a.toNat := target_toNat a
  have hrange : s.pc.toNat + 1 ≤ 4095 := by rw [hpc, hzext]; omega
  have hw : decodeWord s.opcode = .jp a := by rw [hop, ← encodeWord_jp, decodeWord_encodeWord rfl]
  have hexec : exec (decodeWord s.opcode) (s.beginStep rnd) = .next ((s.beginStep rnd).setPc s.pc) := by
    rw [hw, exec_jp, hpc, target]
  have hstep := stepWith_of_exec hexec
  rw [s.selfJump_eq_ticked rnd hrange hcur] at hstep
  refine ⟨_, ?noError, hstep, fun hdt hst => ?fixedPoint⟩
  case noError => rw [State.setPc_cur, State.beginStep_cur, if_neg (by omega)]
  case fixedPoint => rwa [s.ticked_of_zero hdt hst] at hstep

/-! ### A call and its return (R24) -/

/-- Settles O24: with SP = k the call writes slot k and SP = k + 1, and the return reads slot k. -/
theorem callThenReturnComesBack : Obligations.CallThenReturnComesBack := by
  intro s t u nnn hroom hcall hstack hsp
  have hk : s.sp.val = (⟨s.sp.val, hroom⟩ : Fin 16).val := rfl
  rw [exec_call_of_room s nnn hk] at hcall
  cases hcall
  have husp : u.sp.val = (⟨s.sp.val, hroom⟩ : Fin 16).val + 1 := congrArg Fin.val hsp
  refine ⟨_, exec_ret_of_some u husp, ?pc, rfl, rfl⟩
  case pc =>
    have hslot : u.slot ⟨s.sp.val, hroom⟩ = (s.setSlot ⟨s.sp.val, hroom⟩ s.pc).slot ⟨s.sp.val, hroom⟩ :=
      congrArg (·.get ⟨s.sp.val, hroom⟩) hstack
    rw [State.setPc_pc, hslot, State.slot_setSlot, if_pos rfl]

/-! ### The host's view of the framebuffer (R28, R213) -/

theorem State.framebuffer_length (s : State) (fbSetValue : Nat) : (s.framebuffer fbSetValue).length = 2048 := by
  rw [State.framebuffer, List.length_map, List.length_range]
  rfl

/-- Index cy × 64 + cx is below 2048, and gives cx and cy back. -/
theorem State.framebuffer_getElem? (s : State) (fbSetValue : Nat) (cx : Fin 64) (cy : Fin 32) :
    (s.framebuffer fbSetValue)[cy.val * 64 + cx.val]? = some (if s.cell cx.val cy.val then fbSetValue else 0) := by
  have hlt : cy.val * 64 + cx.val < Config.fbWidth * Config.fbHeight := by
    simp only [Config.fbWidth, Config.fbHeight]
    omega
  have hcx : (cy.val * 64 + cx.val) % Config.fbWidth = cx.val := by
    simp only [Config.fbWidth]
    omega
  have hcy : (cy.val * 64 + cx.val) / Config.fbWidth = cy.val := by
    simp only [Config.fbWidth]
    omega
  rw [State.framebuffer, List.getElem?_map, List.getElem?_range hlt, Option.map_some, hcx, hcy]

/-- Settles O41. -/
theorem framebufferViewIsRowMajor : Obligations.FramebufferViewIsRowMajor :=
  fun fbSetValue s => ⟨⟨_, rfl, rfl, s.framebuffer_length fbSetValue, s.framebuffer_getElem? fbSetValue⟩, rfl⟩

end Sys2Proof.Machine
end
